-- ==== Sys2Proof/Word.lean ====
section
/-!
DEFINITION. The words of the LS-8 engine: the 8-bit byte of registers, memory cells and addresses
(spec/00_scope.md R4, R5) and the 9-bit word of PC and INFO (spec/10_state.md R14, R18).
-/

namespace Sys2Proof

/-- A register value, a memory cell or an operand byte: W = 8 bits, unsigned (R4, R5). -/
abbrev Byte := BitVec 8

/-- The program counter and INFO: 9 bits (R14, R18). -/
abbrev Word9 := BitVec 9

end Sys2Proof
end

