-- ==== Sys2Proof/Syntax.lean ====
section
/-!
DEFINITION. The instruction set as syntax: one constructor of `Instr` per row of
spec/opcode_table.json, with the operand bytes the spec's formats give it (spec/30_encoding.md R52).
-/

namespace Sys2Proof

/-- An instruction of the LS-8 engine (R55). An operand is the WHOLE operand byte: whether a register
operand byte selects a register is checked by the instruction that uses it (R53, R75, R165), so that an
untaken JEQ or JNE runs whatever its operand byte is. -/
inductive Instr where
  /-- Format Z: stop execution (R90). -/
  | hlt
  /-- Format RI: load immediate (R91). -/
  | ldi (a imm : Byte)
  /-- Format R: print register (R92). -/
  | prn (a : Byte)
  /-- Format R: push (R100). -/
  | push (a : Byte)
  /-- Format R: pop (R101). -/
  | pop (a : Byte)
  /-- Format R: call (R110). -/
  | call (a : Byte)
  /-- Format Z: return (R111). -/
  | ret
  /-- Format R: jump (R112). -/
  | jmp (a : Byte)
  /-- Format R: jump if E is set (R113). -/
  | jeq (a : Byte)
  /-- Format R: jump if E is clear (R114). -/
  | jne (a : Byte)
  /-- Format RR: wraparound addition (R121). -/
  | add (a b : Byte)
  /-- Format RR: wraparound subtraction (R122). -/
  | sub (a b : Byte)
  /-- Format RR: wraparound multiplication (R123). -/
  | mul (a b : Byte)
  /-- Format RR: unsigned quotient (R124). -/
  | div (a b : Byte)
  /-- Format RR: unsigned remainder (R125). -/
  | mod (a b : Byte)
  /-- Format RR: unsigned comparison (R130). -/
  | cmp (a b : Byte)
  /-- Format RR: bitwise and (R131). -/
  | and (a b : Byte)
  /-- Format RR: bitwise or (R132). -/
  | or (a b : Byte)
  /-- Format RR: bitwise exclusive or (R133). -/
  | xor (a b : Byte)
  /-- Format RR: shift left (R134). -/
  | shl (a b : Byte)
  /-- Format RR: logical shift right (R135). -/
  | shr (a b : Byte)
  deriving DecidableEq, Repr

/-- The 21 mnemonics of R55: the keys of the opcode table. -/
inductive Mnemonic where
  | hlt | ldi | prn | push | pop | call | ret | jmp | jeq | jne
  | add | sub | mul | div | mod | cmp | and | or | xor | shl | shr
  deriving DecidableEq, Repr

/-- What the opcode table holds for a mnemonic beside its byte (R52, R56): how many operand bytes
follow and the instruction they make. `zero` is format Z, `one` format R, `two` formats RI and RR. -/
inductive Shape where
  | zero (i : Instr)
  | one (make : Byte → Instr)
  | two (make : Byte → Byte → Instr)

end Sys2Proof
end

