-- ==== Sys2Proof/WellFormed.lean ====
section
/-!
DEFINITION. Well-formed instructions: every register operand byte is a register index 0..7
(spec/30_encoding.md R53). An instruction that is not well formed decodes like any other and has a
meaning: it raises InvalidRegister where it uses the operand (spec/60_exceptions.md R165).
-/

namespace Sys2Proof

/-- A register operand byte that selects a register: 0x00 to 0x07 (R53). -/
def isRegisterByte (b : Byte) : Bool := decide (b.toNat ≤ 7)

/-- The register operand bytes of an instruction, operand a first (R52). The immediate of LDI is none. -/
def Instr.registerOperands : Instr → List Byte
  | .hlt => []
  | .ldi a _ => [a]
  | .prn a => [a]
  | .push a => [a]
  | .pop a => [a]
  | .call a => [a]
  | .ret => []
  | .jmp a => [a]
  | .jeq a => [a]
  | .jne a => [a]
  | .add a b => [a, b]
  | .sub a b => [a, b]
  | .mul a b => [a, b]
  | .div a b => [a, b]
  | .mod a b => [a, b]
  | .cmp a b => [a, b]
  | .and a b => [a, b]
  | .or a b => [a, b]
  | .xor a b => [a, b]
  | .shl a b => [a, b]
  | .shr a b => [a, b]

/-- R53: bits 7:3 of every register operand byte are 0. -/
def Instr.wellFormed (i : Instr) : Bool := i.registerOperands.all isRegisterByte

end Sys2Proof
end

