-- ==== Sys2Proof/Decode.lean ====
section
/-!
DEFINITION. The opcode table, the decoder and the encoder (spec/30_encoding.md R50 to R58).
Opcode byte values: PRESUMED (the spec's own, from general knowledge: R55, D4, G1, log 9).
Operand a at the lower address: PRESUMED (R52, D5, G3, log 17).
-/

namespace Sys2Proof

/-- The opcode byte of each mnemonic (the table of R55). -/
def Mnemonic.opcode : Mnemonic → Byte
  | .hlt => 0x01#8
  | .ldi => 0x82#8
  | .prn => 0x47#8
  | .push => 0x45#8
  | .pop => 0x46#8
  | .call => 0x50#8
  | .ret => 0x11#8
  | .jmp => 0x54#8
  | .jeq => 0x55#8
  | .jne => 0x56#8
  | .add => 0xA0#8
  | .sub => 0xA1#8
  | .mul => 0xA2#8
  | .div => 0xA3#8
  | .mod => 0xA4#8
  | .cmp => 0xA7#8
  | .and => 0xA8#8
  | .or => 0xAA#8
  | .xor => 0xAB#8
  | .shl => 0xAC#8
  | .shr => 0xAD#8

/-- The rows of the table in its order (R55). -/
def Mnemonic.all : List Mnemonic :=
  [.hlt, .ldi, .prn, .push, .pop, .call, .ret, .jmp, .jeq, .jne,
   .add, .sub, .mul, .div, .mod, .cmp, .and, .or, .xor, .shl, .shr]

/-- The format of each mnemonic and the instruction its operand bytes make (R52, R56). -/
def Mnemonic.shape : Mnemonic → Shape
  | .hlt => .zero .hlt
  | .ldi => .two .ldi
  | .prn => .one .prn
  | .push => .one .push
  | .pop => .one .pop
  | .call => .one .call
  | .ret => .zero .ret
  | .jmp => .one .jmp
  | .jeq => .one .jeq
  | .jne => .one .jne
  | .add => .two .add
  | .sub => .two .sub
  | .mul => .two .mul
  | .div => .two .div
  | .mod => .two .mod
  | .cmp => .two .cmp
  | .and => .two .and
  | .or => .two .or
  | .xor => .two .xor
  | .shl => .two .shl
  | .shr => .two .shr

/-- The mnemonic whose opcode byte is `b`, by exact match of all 8 bits (R56, R74); none for the 235
illegal bytes (R57). -/
def mnemonicOf (b : Byte) : Option Mnemonic :=
  Mnemonic.all.find? fun m => m.opcode == b

/-- Field NOPS of an opcode byte, bits 7:6 (R51). -/
def opcodeNops (b : Byte) : Nat := (b.extractLsb' 6 2).toNat

/-- Field ALU of an opcode byte, bit 5 (R51). -/
def opcodeAlu (b : Byte) : Bool := b.getLsbD 5

/-- Field SETPC of an opcode byte, bit 4 (R51). -/
def opcodeSetPc (b : Byte) : Bool := b.getLsbD 4

/-- Field ID of an opcode byte, bits 3:0 (R51). No decoder uses it (R56). -/
def opcodeId (b : Byte) : BitVec 4 := b.extractLsb' 0 4

/-- Why bytes are no instruction. -/
inductive DecodeError where
  /-- There is no opcode byte. The engine's fetch never meets it: it decodes three bytes. -/
  | noOpcode
  /-- The byte is none of the 21 opcodes (R57): the step raises UnknownOpcode. -/
  | unknownOpcode (op : Byte)
  /-- The bytes end before the operands do. The engine's fetch never meets it: it decodes three bytes. -/
  | truncated (op : Byte)
  deriving DecidableEq, Repr

/-- Takes the operand bytes a format asks for, in ascending address order (R52, R75), and leaves the rest. -/
def takeOperands : Shape → List Byte → Option (Instr × List Byte)
  | .zero i, rest => some (i, rest)
  | .one make, a :: rest => some (make a, rest)
  | .one _, [] => none
  | .two make, a :: b :: rest => some (make a b, rest)
  | .two _, [_] => none
  | .two _, [] => none

/-- Decodes the instruction at the front of `bytes` and gives the bytes after it (R50, R56, R74). An
operand byte is taken as it stands, whatever its value (R58). -/
def decode : List Byte → Except DecodeError (Instr × List Byte)
  | [] => .error .noOpcode
  | op :: rest =>
    match mnemonicOf op with
    | none => .error (.unknownOpcode op)
    | some m =>
      match takeOperands m.shape rest with
      | none => .error (.truncated op)
      | some r => .ok r

/-- The mnemonic of an instruction. -/
def Instr.mnemonic : Instr → Mnemonic
  | .hlt => .hlt
  | .ldi _ _ => .ldi
  | .prn _ => .prn
  | .push _ => .push
  | .pop _ => .pop
  | .call _ => .call
  | .ret => .ret
  | .jmp _ => .jmp
  | .jeq _ => .jeq
  | .jne _ => .jne
  | .add _ _ => .add
  | .sub _ _ => .sub
  | .mul _ _ => .mul
  | .div _ _ => .div
  | .mod _ _ => .mod
  | .cmp _ _ => .cmp
  | .and _ _ => .and
  | .or _ _ => .or
  | .xor _ _ => .xor
  | .shl _ _ => .shl
  | .shr _ _ => .shr

/-- The operand bytes of an instruction in ascending address order (R52). -/
def Instr.operandBytes : Instr → List Byte
  | .hlt => []
  | .ldi a imm => [a, imm]
  | .prn a => [a]
  | .push a => [a]
  | .pop a => [a]
  | .call a => [a]
  | .ret => []
  | .jmp a => [a]
  | .jeq a => [a]
  | .jne a => [a]
  | .add a b => [a, b]
  | .sub a b => [a, b]
  | .mul a b => [a, b]
  | .div a b => [a, b]
  | .mod a b => [a, b]
  | .cmp a b => [a, b]
  | .and a b => [a, b]
  | .or a b => [a, b]
  | .xor a b => [a, b]
  | .shl a b => [a, b]
  | .shr a b => [a, b]

/-- The bytes of an instruction, opcode first (R50, R52, R55). -/
def encode (i : Instr) : List Byte := i.mnemonic.opcode :: i.operandBytes

/-- The length of an instruction in bytes: 1 + opcode[7:6] (R50). -/
def Instr.length (i : Instr) : Nat := 1 + opcodeNops i.mnemonic.opcode

/-- Byte `k` of the instruction whose bits are `w` as spec/opcode_table.json numbers them: byte 0 is the
opcode, bits 7:0 (R52). The bits from `nbits` up are zero. -/
def tableByte (nbits w k : Nat) : Byte := BitVec.ofNat 8 ((w % 2 ^ nbits) / 2 ^ (8 * k))

/-- The three bytes of an instruction whose bits are `w`, the first at the lowest address. -/
def tableBytes (nbits w : Nat) : List Byte :=
  [tableByte nbits w 0, tableByte nbits w 1, tableByte nbits w 2]

/-- The instruction the decoder reads from an instruction whose bits are `w`. -/
def decodeTableWord (nbits w : Nat) : Option Instr :=
  match decode (tableBytes nbits w) with
  | .ok (i, _) => some i
  | .error _ => none

end Sys2Proof
end

