-- ==== Sys2Proof/Config.lean ====
section
/-!
DEFINITION. The parameters of the engine (spec/00_scope.md R4) and the reset values of
spec/10_state.md R22. The spec gives every one a value, so there is no free value here.
-/

namespace Sys2Proof.Config

/-- N, the number of memory bytes (R4, R30). -/
def memoryBytes : Nat := 256

/-- SP_RESET, the reset value of R7 (R4, R22). -/
def spReset : Byte := 0xF4#8

/-- PC_RESET (R4, R22). -/
def pcReset : Word9 := 0#9

/-- The reset value of R0 to R6. PRESUMED (the spec's own, from general knowledge: R22, D7, log 1). -/
def registerReset : Byte := 0#8

/-- The reset value of FL: E = G = L = 0. PRESUMED (the spec's own, from general knowledge: R22, D7, log 1). -/
def flagsReset : Byte := 0#8

/-- What a memory byte that nothing has written reads as (R22, R141, D8, log 2). -/
def unloadedByte : Byte := 0#8

end Sys2Proof.Config
end

