-- ==== Sys2Proof/Machine/State.lean ====
section
/-!
DEFINITION. The state of the LS-8 engine: exactly the eight entries of spec/10_state.md R10, as plain
data, the state after reset (R22), and the reasons a step can stop.
-/

namespace Sys2Proof.Machine

/-- The names of the eight registers (R11). -/
inductive Reg where
  | r0 | r1 | r2 | r3 | r4 | r5 | r6 | r7
  deriving DecidableEq, Repr

/-- The register file (R11): eight ordinary registers of 8 bits. R7 is the stack pointer by use only (R12). -/
structure Regs where
  r0 : Byte
  r1 : Byte
  r2 : Byte
  r3 : Byte
  r4 : Byte
  r5 : Byte
  r6 : Byte
  r7 : Byte
  deriving DecidableEq, Repr

/-- RS, the run state (R18). -/
inductive RunState where
  /-- The engine takes a step at each tick. -/
  | running
  /-- A HLT instruction executed. -/
  | halted
  /-- A fetch found PC at or past the end of memory (graceful end, no error). -/
  | ended
  /-- A fatal condition was raised; CAUSE and INFO say which. -/
  | fault
  deriving DecidableEq, Repr

/-- CAUSE, the fault cause (R18, R161 to R165). -/
inductive Cause where
  /-- None: RS is not FAULT. -/
  | none
  /-- An access outside addresses 0..255 (R161). -/
  | outOfRange
  /-- An ALU operation select outside the eleven operations (R162): no program reaches it. -/
  | unsupportedOperation
  /-- DIV or MOD with a divisor of 0 (R163). -/
  | divisionByZero
  /-- A fetched byte that is none of the 21 opcodes (R164). -/
  | unknownOpcode
  /-- A register operand byte above 7 (R165). -/
  | invalidRegister
  deriving DecidableEq, Repr

/-- `C(info)` of R6: what a `raise` carries to fault entry (R167). -/
structure Trap where
  cause : Cause
  info : Word9
  deriving DecidableEq, Repr

/-- MEM (R30): the cells that differ from `Config.unloadedByte`, by strictly rising address. -/
abbrev Memory := List Host.Cell

/-- The architectural state of the engine (R10), and nothing else. -/
structure State where
  /-- MEM, 256 cells of 8 bits. -/
  mem : Memory
  /-- x[0] to x[7]. -/
  regs : Regs
  /-- PC, 9 bits. -/
  pc : Word9
  /-- FL, 8 bits laid out 00000LGE (R16). -/
  fl : Byte
  /-- RS. -/
  rs : RunState
  /-- CAUSE. -/
  cause : Cause
  /-- INFO, 9 bits. -/
  info : Word9
  /-- OUT: the bytes PRN has emitted, oldest first (R145). -/
  out : List Byte
  deriving DecidableEq, Repr

/-- The register file after reset (R22; R0 to R6: log 1). -/
def Regs.reset : Regs where
  r0 := Config.registerReset
  r1 := Config.registerReset
  r2 := Config.registerReset
  r3 := Config.registerReset
  r4 := Config.registerReset
  r5 := Config.registerReset
  r6 := Config.registerReset
  r7 := Config.spReset

/-- The machine right after construction, before the host has loaded anything (R22, R190, R191; memory
with nothing listed: log 2). -/
def State.reset : State where
  mem := []
  regs := Regs.reset
  pc := Config.pcReset
  fl := Config.flagsReset
  rs := .running
  cause := .none
  info := 0#9
  out := []

/-- Why the machine stops outside the spec's own state: no reason exists. Every fault of the spec is a
state of the engine (RS = FAULT, R167), so a step that raises one answers a NEXT state, and a stopped
engine's step changes nothing (R72). The type has no constructor: that no step stops so is safe. -/
inductive Fault
  deriving DecidableEq, Repr

/-- Why an instruction has no meaning. -/
inductive Refusal where
  /-- Raised by an arm of `exec` whose instruction has no meaning yet, under the table's mnemonic. Every
  instruction has its meaning, so nothing raises it. Safe: it proves nothing about the hardware. -/
  | notModelled (mnemonic : String)
  deriving DecidableEq, Repr

/-- The outcome of an instruction or a step. -/
abbrev Result := Host.Outcome State Fault Refusal

end Sys2Proof.Machine
end

