-- ==== Sys2Proof/Machine/Ops.lean ====
section
/-!
DEFINITION. The named operations over memory, registers, PC, OUT and the run state: the pseudocode
primitives of spec/00_scope.md R6, the memory contract of spec/20_memory.md R31 and R32, the stack
accesses of spec/42_stack.md R104, and fault entry (spec/60_exceptions.md R167).
-/

namespace Sys2Proof.Machine

/-- `zext_9(v)` of R6: a byte widened to 9 bits with zeros. -/
def zext9 (v : Byte) : Word9 := v.setWidth 9

/-! ## Memory -/

/-- The byte stored at address `a` (R33); an unlisted cell holds `Config.unloadedByte` (log 2). -/
def Memory.read : Memory → Nat → Byte
  | [], _ => Config.unloadedByte
  | (k, b) :: rest, a => if k = a then b else Memory.read rest a

/-- Stores `v` at address `a` and keeps the canonical form: a cell that holds what an unlisted one reads as is not listed. -/
def Memory.write : Memory → Nat → Byte → Memory
  | [], a, v => if v = Config.unloadedByte then [] else [(a, v)]
  | (k, b) :: rest, a, v =>
    if k < a then (k, b) :: Memory.write rest a v
    else if k = a then (if v = Config.unloadedByte then rest else (a, v) :: rest)
    else (if v = Config.unloadedByte then (k, b) :: rest else (a, v) :: (k, b) :: rest)

/-- Every listed address is at least `lo`, below 256 and above the one before it, and no entry is what
an unlisted address reads as. -/
def Memory.wfFrom (lo : Nat) : Memory → Bool
  | [] => true
  | (k, b) :: rest =>
    decide (lo ≤ k) && decide (k < Config.memoryBytes) && decide (b ≠ Config.unloadedByte)
      && Memory.wfFrom (k + 1) rest

/-- The canonical form of MEM (R30: addresses 0..255). -/
def Memory.wf (m : Memory) : Bool := Memory.wfFrom 0 m

/-- An address of memory: 0 <= addr < 256 (R6, R30, R31). -/
def inRange (addr : Int) : Bool := decide (0 ≤ addr) && decide (addr < (Config.memoryBytes : Int))

/-- `OutOfRange(addr)`: INFO is the offending address in 9 bits (R18, R161). -/
def outOfRange (addr : Int) : Trap where
  cause := .outOfRange
  info := BitVec.ofInt 9 addr

/-- `MemRead(addr, 1)` (R6, R31). -/
def memRead (s : State) (addr : Int) : Except Trap Byte :=
  if inRange addr then .ok (Memory.read s.mem addr.toNat) else .error (outOfRange addr)

/-- `MemWrite(addr, 1, v)` (R6, R32). -/
def memWrite (s : State) (addr : Int) (v : Byte) : Except Trap State :=
  if inRange addr then .ok { s with mem := Memory.write s.mem addr.toNat v }
  else .error (outOfRange addr)

/-! ## Registers -/

/-- The value of a register of the file (R11). -/
def Regs.get (g : Regs) : Reg → Byte
  | .r0 => g.r0
  | .r1 => g.r1
  | .r2 => g.r2
  | .r3 => g.r3
  | .r4 => g.r4
  | .r5 => g.r5
  | .r6 => g.r6
  | .r7 => g.r7

/-- The file with one register written (R11): none is hardwired, none is read-only. -/
def Regs.set (g : Regs) (r : Reg) (v : Byte) : Regs :=
  match r with
  | .r0 => { g with r0 := v }
  | .r1 => { g with r1 := v }
  | .r2 => { g with r2 := v }
  | .r3 => { g with r3 := v }
  | .r4 => { g with r4 := v }
  | .r5 => { g with r5 := v }
  | .r6 => { g with r6 := v }
  | .r7 => { g with r7 := v }

/-- SP is R7 (R11, R12). -/
def sp : Reg := .r7

/-- `x[i]` (R6). -/
def readReg (s : State) (r : Reg) : Byte := s.regs.get r

/-- `x[i] <- v` (R6). -/
def writeReg (s : State) (r : Reg) (v : Byte) : State := { s with regs := s.regs.set r v }

/-! ## The stack (R104): one byte at the address R7 holds -/

/-- `x[7] <- (x[7] - 1) mod 256` (R100, D16, log 11). -/
def decSp (s : State) : State := writeReg s sp (readReg s sp - 1#8)

/-- `x[7] <- (x[7] + 1) mod 256` (R101, D16, log 11). -/
def incSp (s : State) : State := writeReg s sp (readReg s sp + 1#8)

/-- The address of a stack access: the value of R7 (R104). -/
def spAddress (s : State) : Int := ((readReg s sp).toNat : Int)

/-- `MemWrite(x[7], 1, v)`. -/
def storeAtSp (s : State) (v : Byte) : Except Trap State := memWrite s (spAddress s) v

/-- `MemRead(x[7], 1)`. -/
def loadAtSp (s : State) : Except Trap Byte := memRead s (spAddress s)

/-! ## PC, FL, OUT and the run state -/

/-- `pc <- pc + n`, in 9 bits (R76). -/
def advance (s : State) (n : Nat) : State := { s with pc := s.pc + BitVec.ofNat 9 n }

/-- `pc <- zext_9(target)` (R117). -/
def jumpTo (s : State) (target : Byte) : State := { s with pc := zext9 target }

/-- `fl <- v` (R6, R130). -/
def setFlags (s : State) (v : Byte) : State := { s with fl := v }

/-- `emit(v)`: append `v` to OUT (R6, R145). -/
def emit (s : State) (v : Byte) : State := { s with out := s.out ++ [v] }

/-- `halt(HALTED)`, `halt(ENDED)` (R6). -/
def halt (s : State) (how : RunState) : State := { s with rs := how }

/-! ## Fault entry -/

/-- `raise C(info)`: RS <- FAULT, CAUSE <- C, INFO <- info, and nothing else changes (R167). There is no
return from a fault (R169); only RESET leaves it (Machine/Ports.lean). -/
def takeFault (s : State) (t : Trap) : State :=
  { s with rs := .fault, cause := t.cause, info := t.info }

/-- The end of an instruction executed in state `s`: it completes with all its effects, or it raises and
the fault is taken in `s`, with none of them (R79, R167). Either is a next state (log 6). -/
def conclude (s : State) : Except Trap State → Result
  | .ok t => .next t
  | .error t => .next (takeFault s t)

end Sys2Proof.Machine
end

