-- ==== Sys2Proof/Machine/Flags.lean ====
section
/-!
DEFINITION. The flags register `00000LGE` (spec/10_state.md R16), the flags of a comparison
(spec/45_alu_compare_logic_shift.md R130) and the branch logic that reads E
(spec/43_control_transfer.md R115). Bit positions: PRESUMED (R16, D6, G4, log 10).
-/

namespace Sys2Proof.Machine

/-- E, Equal: bit 0 (R16). -/
def flagE (fl : Byte) : Bool := fl.getLsbD 0

/-- G, Greater-than: bit 1 (R16). -/
def flagG (fl : Byte) : Bool := fl.getLsbD 1

/-- L, Less-than: bit 2 (R16). -/
def flagL (fl : Byte) : Bool := fl.getLsbD 2

/-- The three flags L, G, E of an unsigned comparison (R130): exactly one is 1. -/
def compareFlags (va vb : Byte) : BitVec 3 :=
  if va = vb then 0b001#3 else if va.toNat < vb.toNat then 0b100#3 else 0b010#3

/-- FL from its three meaningful bits: bits 7:3 are 0 (R16). -/
def flagsByte (lge : BitVec 3) : Byte := lge.setWidth 8

/-- The five PC-setting operations (R77, R115). -/
inductive BranchOp where
  | call | ret | jmp | jeq | jne
  deriving DecidableEq, Repr

/-- `taken` of the branch logic, from the operation and E (R115). L and G are no inputs. -/
def branchTaken (op : BranchOp) (e : Bool) : Bool :=
  match op with
  | .call => true
  | .ret => true
  | .jmp => true
  | .jeq => e
  | .jne => !e

end Sys2Proof.Machine
end

