-- ==== Sys2Proof/Machine/Operands.lean ====
section
/-!
DEFINITION. Operand bytes: reading them (spec/40_engine_cycle.md R75) and the register check
`Reg(b)` (spec/00_scope.md R6, spec/60_exceptions.md R165).
-/

namespace Sys2Proof.Machine

/-- The register index of a name (R53). -/
def Reg.index : Reg → Byte
  | .r0 => 0#8
  | .r1 => 1#8
  | .r2 => 2#8
  | .r3 => 3#8
  | .r4 => 4#8
  | .r5 => 5#8
  | .r6 => 6#8
  | .r7 => 7#8

/-- The register an operand byte selects (R53): none above 7. -/
def regSelected (b : Byte) : Option Reg :=
  match b.toNat with
  | 0 => some .r0
  | 1 => some .r1
  | 2 => some .r2
  | 3 => some .r3
  | 4 => some .r4
  | 5 => some .r5
  | 6 => some .r6
  | 7 => some .r7
  | _ => none

/-- `InvalidRegister(b)`: INFO is the operand byte (R165, D10, log 7). -/
def invalidRegister (b : Byte) : Trap where
  cause := .invalidRegister
  info := zext9 b

/-- `Reg(b)` (R6, R165). -/
def checkReg (b : Byte) : Except Trap Reg :=
  match regSelected b with
  | some r => .ok r
  | none => .error (invalidRegister b)

/-- The address of operand byte `k`: PC + k, not reduced (R14, R75). -/
def operandAddress (s : State) (k : Nat) : Int := ((s.pc.toNat + k : Nat) : Int)

/-- `v <- MemRead(pc + k, 1)` (R75) for the operand byte `v` that the decoder took from that address: the
read raises OutOfRange(pc + k) when the address is 256 or more, and `v` is then never looked at (log 4). -/
def readOperand (s : State) (k : Nat) (v : Byte) : Except Trap Byte :=
  if inRange (operandAddress s k) then .ok v else .error (outOfRange (operandAddress s k))

/-- The operand of format R: read byte 1, then check it (R75, R168). -/
def oneReg (s : State) (a : Byte) : Except Trap Reg := do
  let a ← readOperand s 1 a
  checkReg a

/-- The operands of format RI: both bytes are read before the register check (R91). -/
def regAndImm (s : State) (a imm : Byte) : Except Trap (Reg × Byte) := do
  let a ← readOperand s 1 a
  let imm ← readOperand s 2 imm
  let r ← checkReg a
  return (r, imm)

/-- The operands of format RR: both bytes are read, then a is checked, then b (R120). -/
def twoRegs (s : State) (a b : Byte) : Except Trap (Reg × Reg) := do
  let a ← readOperand s 1 a
  let b ← readOperand s 2 b
  let ra ← checkReg a
  let rb ← checkReg b
  return (ra, rb)

end Sys2Proof.Machine
end

