-- ==== Sys2Proof/Machine/Alu.lean ====
section
/-!
DEFINITION. The ALU (spec/40_engine_cycle.md R80) and the common frame of the eleven ALU instructions
(spec/44_alu_arithmetic.md R120), then one meaning per instruction: ADD, SUB, MUL, DIV, MOD
(R121 to R125) and CMP, AND, OR, XOR, SHL, SHR (R130 to R135).
-/

namespace Sys2Proof.Machine

/-! ## The ALU as a combinational block -/

/-- The eleven operations of the ALU (R80). -/
inductive AluOp where
  | add | sub | mul | div | mod | cmp | and | or | xor | shl | shr
  deriving DecidableEq, Repr

/-- The rows of `AluOp`. -/
def AluOp.all : List AluOp := [.add, .sub, .mul, .div, .mod, .cmp, .and, .or, .xor, .shl, .shr]

/-- The mnemonic whose matched opcode selects the operation (R80). -/
def AluOp.mnemonic : AluOp → Mnemonic
  | .add => .add
  | .sub => .sub
  | .mul => .mul
  | .div => .div
  | .mod => .mod
  | .cmp => .cmp
  | .and => .and
  | .or => .or
  | .xor => .xor
  | .shl => .shl
  | .shr => .shr

/-- The operation select the engine puts on the ALU's `op` input. DESIGN CHOICE: the matched opcode byte;
the spec names the operations and gives the select no bits (log 13). -/
def AluOp.select (op : AluOp) : Byte := op.mnemonic.opcode

/-- The operation a select names, none outside the set (R80, R162). -/
def aluOpOf (sel : Byte) : Option AluOp := AluOp.all.find? fun op => op.select == sel

/-- What the ALU answers (R80): a new value for register a, a new FL, or one of its two conditions. An output
that R80 gives no value for (`result` beside CMP, `flags` beside the others) has none here (log 13). -/
inductive AluOut where
  /-- `result`, with write_reg = 1. -/
  | register (result : Byte)
  /-- The three flags L, G, E, with write_flags = 1 (CMP). -/
  | compare (flags : BitVec 3)
  /-- div_zero = 1 (R163). -/
  | divisionByZero
  /-- unsupported = 1 (R162). -/
  | unsupportedSelect
  deriving DecidableEq, Repr

/-- The output `write_reg`: 1 when the operation is not CMP and there is no fault (R80). -/
def AluOut.writeReg : AluOut → Bool
  | .register _ => true
  | .compare _ => false
  | .divisionByZero => false
  | .unsupportedSelect => false

/-- The output `write_flags`: 1 when the operation is CMP (R80). -/
def AluOut.writeFlags : AluOut → Bool
  | .register _ => false
  | .compare _ => true
  | .divisionByZero => false
  | .unsupportedSelect => false

/-- The output `div_zero`: 1 when the operation is DIV or MOD and vb = 0 (R80). -/
def AluOut.divZero : AluOut → Bool
  | .register _ => false
  | .compare _ => false
  | .divisionByZero => true
  | .unsupportedSelect => false

/-- The output `unsupported`: 1 when the select is outside the set (R80). -/
def AluOut.unsupported : AluOut → Bool
  | .register _ => false
  | .compare _ => false
  | .divisionByZero => false
  | .unsupportedSelect => true

/-- SHL: zeros enter at bit 0; the count is the whole byte, 8 or more gives 0 (R134, D19, log 12). -/
def shiftLeft (va vb : Byte) : Byte := if 8 ≤ vb.toNat then 0#8 else va <<< vb.toNat

/-- SHR: zeros enter at bit 7; the count is the whole byte, 8 or more gives 0 (R135, D19, log 12). -/
def shiftRight (va vb : Byte) : Byte := if 8 ≤ vb.toNat then 0#8 else va >>> vb.toNat

/-- One operation of the ALU on two unsigned bytes (R121 to R125, R130 to R135). -/
def aluCompute (op : AluOp) (va vb : Byte) : AluOut :=
  match op with
  | .add => .register (va + vb)
  | .sub => .register (va - vb)
  | .mul => .register (va * vb)
  | .div => if vb = 0#8 then .divisionByZero else .register (va / vb)
  | .mod => if vb = 0#8 then .divisionByZero else .register (va % vb)
  | .cmp => .compare (compareFlags va vb)
  | .and => .register (va &&& vb)
  | .or => .register (va ||| vb)
  | .xor => .register (va ^^^ vb)
  | .shl => .register (shiftLeft va vb)
  | .shr => .register (shiftRight va vb)

/-- `apply(operation, reg_a, reg_b)` of R80: a select outside the set is unsupported, never a no-op (R162). -/
def aluApply (sel va vb : Byte) : AluOut :=
  match aluOpOf sel with
  | some op => aluCompute op va vb
  | none => .unsupportedSelect

/-! ## The engine's use of it -/

/-- `UnsupportedOperation(select)` (R18, R162). No instruction of the engine raises it. -/
def unsupportedOperation (sel : Byte) : Trap where
  cause := .unsupportedOperation
  info := zext9 sel

/-- `DivisionByZero(b)`: INFO is the divisor's register index (R18, R163). -/
def divisionByZero (b : Byte) : Trap where
  cause := .divisionByZero
  info := zext9 b

/-- What the engine does with the ALU's answer: write register a or FL, or raise (R80, R120, R148). -/
def aluCommit (s : State) (sel : Byte) (ra rb : Reg) (o : AluOut) : Except Trap State :=
  match o with
  | .register v => .ok (writeReg s ra v)
  | .compare lge => .ok (setFlags s (flagsByte lge))
  | .divisionByZero => .error (divisionByZero rb.index)
  | .unsupportedSelect => .error (unsupportedOperation sel)

/-- The common frame of the ALU instructions (R120): operands, both source values, the operation, pc + 3. -/
def aluInstr (op : AluOp) (a b : Byte) (s : State) : Result :=
  conclude s do
    let (ra, rb) ← twoRegs s a b
    let s₁ ← aluCommit s op.select ra rb (aluApply op.select (readReg s ra) (readReg s rb))
    return advance s₁ 3

/-! ## The meanings -/

/-- ADD a, b (R121). -/
def execAdd (a b : Byte) (s : State) : Result := aluInstr .add a b s

/-- SUB a, b (R122). -/
def execSub (a b : Byte) (s : State) : Result := aluInstr .sub a b s

/-- MUL a, b (R123). -/
def execMul (a b : Byte) (s : State) : Result := aluInstr .mul a b s

/-- DIV a, b (R124). -/
def execDiv (a b : Byte) (s : State) : Result := aluInstr .div a b s

/-- MOD a, b (R125). -/
def execMod (a b : Byte) (s : State) : Result := aluInstr .mod a b s

/-- CMP a, b (R130). -/
def execCmp (a b : Byte) (s : State) : Result := aluInstr .cmp a b s

/-- AND a, b (R131). -/
def execAnd (a b : Byte) (s : State) : Result := aluInstr .and a b s

/-- OR a, b (R132). -/
def execOr (a b : Byte) (s : State) : Result := aluInstr .or a b s

/-- XOR a, b (R133). -/
def execXor (a b : Byte) (s : State) : Result := aluInstr .xor a b s

/-- SHL a, b (R134). -/
def execShl (a b : Byte) (s : State) : Result := aluInstr .shl a b s

/-- SHR a, b (R135). -/
def execShr (a b : Byte) (s : State) : Result := aluInstr .shr a b s

end Sys2Proof.Machine
end

