-- ==== Sys2Proof/Machine/Base.lean ====
section
/-!
DEFINITION. Machine control, immediate load and output: HLT, LDI, PRN (spec/41_base.md R90 to R92).
-/

namespace Sys2Proof.Machine

/-- HLT: pc + 1, then HALTED (R90; PC after HLT: D15, log 8). -/
def execHlt (s : State) : Result :=
  conclude s (.ok (halt (advance s 1) .halted))

/-- LDI a, imm (R91). -/
def execLdi (a imm : Byte) (s : State) : Result :=
  conclude s do
    let (r, v) ← regAndImm s a imm
    return advance (writeReg s r v) 3

/-- PRN a (R92). -/
def execPrn (a : Byte) (s : State) : Result :=
  conclude s do
    let r ← oneReg s a
    return advance (emit s (readReg s r)) 2

end Sys2Proof.Machine
end

