-- ==== Sys2Proof/Machine/Control.lean ====
section
/-!
DEFINITION. Control transfer: CALL, RET, JMP, JEQ, JNE (spec/43_control_transfer.md R110 to R114). They
write PC themselves (spec/40_engine_cycle.md R77).
-/

namespace Sys2Proof.Machine

/-- The return address pc + 2 as the byte CALL pushes: it raises OutOfRange when it is no address of
memory (R110, D17, log 11). -/
def returnAddress (s : State) : Except Trap Byte :=
  if inRange (operandAddress s 2) then .ok (BitVec.ofNat 8 (s.pc.toNat + 2))
  else .error (outOfRange (operandAddress s 2))

/-- JMP, JEQ and JNE: when the branch logic takes the branch, read and check the operand and jump to the
register's value; otherwise pc + 2, the operand neither read nor checked (R75, R77, R112 to R115). -/
def branchOnReg (op : BranchOp) (a : Byte) (s : State) : Except Trap State :=
  if branchTaken op (flagE s.fl) then do
    let r ← oneReg s a
    return jumpTo s (readReg s r)
  else .ok (advance s 2)

/-- CALL a (R110): x[a] is read after x[7] has been decremented. -/
def execCall (a : Byte) (s : State) : Result :=
  conclude s do
    let r ← oneReg s a
    let ret ← returnAddress s
    let s₁ := decSp s
    let s₂ ← storeAtSp s₁ ret
    return jumpTo s₂ (readReg s₂ r)

/-- RET (R111). -/
def execRet (s : State) : Result :=
  conclude s do
    let target ← loadAtSp s
    return incSp (jumpTo s target)

/-- JMP a (R112). -/
def execJmp (a : Byte) (s : State) : Result := conclude s (branchOnReg .jmp a s)

/-- JEQ a (R113). -/
def execJeq (a : Byte) (s : State) : Result := conclude s (branchOnReg .jeq a s)

/-- JNE a (R114). -/
def execJne (a : Byte) (s : State) : Result := conclude s (branchOnReg .jne a s)

end Sys2Proof.Machine
end

