-- ==== Sys2Proof/Machine/Stack.lean ====
section
/-!
DEFINITION. The stack instructions PUSH and POP (spec/42_stack.md R100, R101). Their two effects happen
in the order written, which R7 as the operand sees (R202, D18, log 11).
-/

namespace Sys2Proof.Machine

/-- PUSH a (R100): x[a] is read after x[7] has been decremented. -/
def execPush (a : Byte) (s : State) : Result :=
  conclude s do
    let r ← oneReg s a
    let s₁ := decSp s
    let s₂ ← storeAtSp s₁ (readReg s₁ r)
    return advance s₂ 2

/-- POP a (R101): x[7] is incremented after x[a] has been written. -/
def execPop (a : Byte) (s : State) : Result :=
  conclude s do
    let r ← oneReg s a
    let v ← loadAtSp s
    return advance (incSp (writeReg s r v)) 2

end Sys2Proof.Machine
end

