-- ==== Sys2Proof/Machine/Fetch.lean ====
section
/-!
DEFINITION. The part of the step before an instruction executes (spec/40_engine_cycle.md R70 to R74):
the run-state test, the end-of-memory test, the fetch and the decode.
-/

namespace Sys2Proof.Machine

/-- What the decoder sees of a read. DESIGN CHOICE: a byte past the end of memory is 0 there; the instruction
that would use it raises OutOfRange before it looks at it (log 4). -/
def byteOrZero : Except Trap Byte → Byte
  | .ok b => b
  | .error _ => 0#8

/-- Byte `k` of the three bytes at PC that the decoder sees (R73, R75). -/
def windowByte (s : State) (k : Nat) : Byte := byteOrZero (memRead s (operandAddress s k))

/-- The three bytes at PC, the opcode first (R50, R52). -/
def fetchWindow (s : State) : List Byte := [windowByte s 0, windowByte s 1, windowByte s 2]

/-- `UnknownOpcode(ir)`: INFO is the byte (R164). -/
def unknownOpcode (op : Byte) : Trap where
  cause := .unknownOpcode
  info := zext9 op

/-- What the step raises when the bytes at PC are no instruction (R74, R164). The decoder meets three
bytes, so it never lacks an opcode or an operand; those two would be a read past the end of memory. -/
def decodeTrap : DecodeError → Trap
  | .noOpcode => outOfRange (Config.memoryBytes : Int)
  | .unknownOpcode op => unknownOpcode op
  | .truncated _ => outOfRange (Config.memoryBytes : Int)

/-- What the step finds before it executes anything. -/
inductive Fetched where
  /-- The step is over with this state and no instruction. -/
  | done (s : State)
  /-- The instruction at PC is to be executed. -/
  | instr (i : Instr)
  deriving DecidableEq, Repr

/-- The step of R70 up to dispatch: a stopped engine changes nothing (R72); PC at or past the end of memory
ends the run (R71); an unknown opcode raises (R74). -/
def fetch (s : State) : Fetched :=
  if s.rs ≠ .running then .done s
  else if Config.memoryBytes ≤ s.pc.toNat then .done (halt s .ended)
  else
    match decode (fetchWindow s) with
    | .ok (i, _) => .instr i
    | .error e => .done (takeFault s (decodeTrap e))

/-- MEM with the bytes of a list stored from address `addr` up; there is no cell past address 255. -/
def Memory.place : Memory → Nat → List Byte → Memory
  | m, _, [] => m
  | m, addr, b :: rest =>
    Memory.place (if addr < Config.memoryBytes then Memory.write m addr b else m) (addr + 1) rest

/-- The state with bytes stored at PC, PC + 1, ... as far as memory goes. -/
def placeAtPc (s : State) (bytes : List Byte) : State :=
  { s with mem := Memory.place s.mem s.pc.toNat bytes }

end Sys2Proof.Machine
end

