-- ==== Sys2Proof/Machine/Step.lean ====
section
/-!
DEFINITION. One step of the engine: one tick, at most one instruction, whole
(spec/40_engine_cycle.md R70), and the host's placing of an instruction where the step fetches.
-/

namespace Sys2Proof.Machine

/-- The step of R70. It adds nothing around `exec`: an instruction writes PC itself (R76, R77). -/
def step (s : State) : Host.Outcome State Fault Refusal :=
  match fetch s with
  | .done t => .next t
  | .instr i => exec i s

/-- `s` with the instruction whose bits are `w` stored at PC, as a load from outside would (log 3). Only
memory changes: a running engine fetches at PC, and a stopped one fetches nothing (R72). -/
def State.withFetchWord (s : State) (nbits w : Nat) : State := placeAtPc s (tableBytes nbits w)

end Sys2Proof.Machine
end

