-- ==== Sys2Proof/Machine/Ports.lean ====
section
/-!
DEFINITION. The four ports of the block (spec/50_interfaces.md R140): RESET (R143, R190), LOAD (R141,
R191), OUT (R145) and STATUS (R146). The host uses RESET and LOAD outside a run only (R147, log 14).
-/

namespace Sys2Proof.Machine

/-- RESET: every register takes its reset value, OUT is emptied, MEM is left alone (R143, R190, D31). -/
def assertReset (s : State) : State := { State.reset with mem := s.mem }

/-- One write strobe of the LOAD port: 8-bit address, 8-bit data (R140). -/
def loadByte (s : State) (addr data : Byte) : State :=
  { s with mem := Memory.write s.mem addr.toNat data }

/-- The host's load: the run starts with MEM = IMAGE, the program bytes at ascending addresses from 0 and 0x00
everywhere else (R141, R147, R191), whatever an earlier run left there. DESIGN CHOICE: a byte after the 256th
has no cell and is dropped; the spec leaves such a file to the host (D30, log 15). -/
def loadImage (s : State) (image : List Byte) : State :=
  { s with mem := Memory.place [] 0 image }

/-- The order of a boot: RESET, then the load; the run starts from here (R191). -/
def boot (s : State) (image : List Byte) : State := loadImage (assertReset s) image

/-- The byte the OUT port transfers between a state and the next one, if any (R140, R145). -/
def outTransfer (s t : State) : Option Byte := t.out[s.out.length]?

/-- RS on the STATUS port: 2 bits (R18, R140). -/
def RunState.code : RunState → BitVec 2
  | .running => 0#2
  | .halted => 1#2
  | .ended => 2#2
  | .fault => 3#2

/-- CAUSE on the STATUS port: 3 bits (R18, R140). -/
def Cause.code : Cause → BitVec 3
  | .none => 0#3
  | .outOfRange => 1#3
  | .unsupportedOperation => 2#3
  | .divisionByZero => 3#3
  | .unknownOpcode => 4#3
  | .invalidRegister => 5#3

/-- What the STATUS port carries (R140, R146). -/
structure Status where
  rs : BitVec 2
  cause : BitVec 3
  info : Word9
  pc : Word9
  deriving DecidableEq, Repr

/-- The STATUS port (R146). -/
def status (s : State) : Status where
  rs := s.rs.code
  cause := s.cause.code
  info := s.info
  pc := s.pc

end Sys2Proof.Machine
end

