-- ==== Sys2Proof/Safety.lean ====
section
/-!
DEFINITION. What counts as a run gone wrong (spec/60_exceptions.md R170) and the invariants of the
machine that the spec states (spec/10_state.md R14, R17, R18).
-/

namespace Sys2Proof.Machine

/-- Gone wrong is RS = FAULT only: HALTED and ENDED are normal ends (R170). -/
def goneWrong (s : State) : Prop := s.rs = .fault

/-- At most one of E, G, L is 1 and bits 7:3 are 0 (R16, R17). -/
abbrev FlagsExclusive (s : State) : Prop :=
  s.fl = 0x00#8 ∨ s.fl = 0x01#8 ∨ s.fl = 0x02#8 ∨ s.fl = 0x04#8

/-- The values PC can take are 0..257 (R14). -/
abbrev PcReachable (s : State) : Prop := s.pc.toNat ≤ 257

/-- What INFO holds for each cause (R18): nothing for None, 256 for OutOfRange, the opcode byte, the operand
byte, the divisor's register index; UnsupportedOperation never stands (R162). -/
def infoFits : Cause → Word9 → Prop
  | .none, info => info = 0#9
  | .outOfRange, info => info = 256#9
  | .unsupportedOperation, _ => False
  | .divisionByZero, info => info.toNat ≤ 7
  | .unknownOpcode, info => ∃ b : Byte, info = zext9 b ∧ mnemonicOf b = none
  | .invalidRegister, info => 8 ≤ info.toNat ∧ info.toNat ≤ 255

/-- CAUSE is None exactly when RS is not FAULT, and INFO fits CAUSE (R18). -/
def StatusConsistent (s : State) : Prop :=
  (s.cause = .none ↔ s.rs ≠ .fault) ∧ infoFits s.cause s.info

/-- MEM keeps its canonical form: 256 cells and no others (R30). -/
abbrev MemoryCanonical (s : State) : Prop := Memory.wf s.mem = true

/-- The invariant of the machine: it holds at reset and every step keeps it. -/
structure Inv (s : State) : Prop where
  memory : MemoryCanonical s
  flags : FlagsExclusive s
  pc : PcReachable s
  status : StatusConsistent s

/-! ## The terms of the statements -/

/-- The byte of MEM at an address. -/
def byteAt (s : State) (a : Nat) : Byte := Memory.read s.mem a

/-- Every byte of memory is as before. -/
def MemoryKept (s t : State) : Prop := ∀ a : Nat, byteAt t a = byteAt s a

/-- Every register outside the list is as before. -/
def RegistersKeptBut (written : List Reg) (s t : State) : Prop :=
  ∀ q : Reg, q ∉ written → readReg t q = readReg s q

/-- RS, CAUSE and INFO are as before. -/
def StatusKept (s t : State) : Prop := t.rs = s.rs ∧ t.cause = s.cause ∧ t.info = s.info

/-- `t` is `s` with this fault raised and nothing else changed (R167), written out field by field. -/
def faulted (s : State) (c : Cause) (info : Word9) : State where
  mem := s.mem
  regs := s.regs
  pc := s.pc
  fl := s.fl
  rs := .fault
  cause := c
  info := info
  out := s.out

/-- `t` is what some fault of `s` leaves (R167). -/
def Raised (s t : State) : Prop := ∃ c info, c ≠ .none ∧ t = faulted s c info

end Sys2Proof.Machine
end

