-- ==== Sys2Proof/Certificates/Slice0/Obligations.lean ====
section
/-!
DEFINITION. The statements for the provers. Each docstring names the rules of spec/ it formalises. A
clause that rests on one of the spec's own decisions D<n> names it with the log entry of this model.
-/

open Sys2Proof Sys2Proof.Machine

/-! ## Encoding -/

/-- Each row of the opcode table, decoded. The opcode bytes are the spec's own from general knowledge (D4,
log 9), and so is operand a at the lower address (D5, log 17). -/
def Obligations.DecodeReadsOpcodeTable : Prop :=
  ∀ (a b : Byte) (rest : List Byte),
    decode (0x01#8 :: rest) = .ok (.hlt, rest) ∧
    decode (0x82#8 :: a :: b :: rest) = .ok (.ldi a b, rest) ∧
    decode (0x47#8 :: a :: rest) = .ok (.prn a, rest) ∧
    decode (0x45#8 :: a :: rest) = .ok (.push a, rest) ∧
    decode (0x46#8 :: a :: rest) = .ok (.pop a, rest) ∧
    decode (0x50#8 :: a :: rest) = .ok (.call a, rest) ∧
    decode (0x11#8 :: rest) = .ok (.ret, rest) ∧
    decode (0x54#8 :: a :: rest) = .ok (.jmp a, rest) ∧
    decode (0x55#8 :: a :: rest) = .ok (.jeq a, rest) ∧
    decode (0x56#8 :: a :: rest) = .ok (.jne a, rest) ∧
    decode (0xA0#8 :: a :: b :: rest) = .ok (.add a b, rest) ∧
    decode (0xA1#8 :: a :: b :: rest) = .ok (.sub a b, rest) ∧
    decode (0xA2#8 :: a :: b :: rest) = .ok (.mul a b, rest) ∧
    decode (0xA3#8 :: a :: b :: rest) = .ok (.div a b, rest) ∧
    decode (0xA4#8 :: a :: b :: rest) = .ok (.mod a b, rest) ∧
    decode (0xA7#8 :: a :: b :: rest) = .ok (.cmp a b, rest) ∧
    decode (0xA8#8 :: a :: b :: rest) = .ok (.and a b, rest) ∧
    decode (0xAA#8 :: a :: b :: rest) = .ok (.or a b, rest) ∧
    decode (0xAB#8 :: a :: b :: rest) = .ok (.xor a b, rest) ∧
    decode (0xAC#8 :: a :: b :: rest) = .ok (.shl a b, rest) ∧
    decode (0xAD#8 :: a :: b :: rest) = .ok (.shr a b, rest)

/-- Decoding the encoding of any instruction, whatever bytes follow it, gives it back with those bytes, so that
no two instructions and no two ways to go on share a byte sequence. -/
def Obligations.DecodeEncodeRoundTrip : Prop :=
  (∀ (i : Instr) (rest : List Byte), decode (encode i ++ rest) = .ok (i, rest)) ∧
  (∀ (i j : Instr) (after after' : List Byte), encode i ++ after = encode j ++ after' → i = j ∧ after = after')

/-- The other direction: bytes that decode are the encoding of what they decode to, and nothing else. -/
def Obligations.DecodedBytesAreTheEncoding : Prop :=
  ∀ (bytes rest : List Byte) (i : Instr), decode bytes = .ok (i, rest) → bytes = encode i ++ rest

/-- R56, R57: decoding rejects exactly the bytes outside the 21 opcodes, whatever follows, and there are
235 of them (the byte values: D4, log 9). -/
def Obligations.UnlistedOpcodesAreRejected : Prop :=
  (∀ (op : Byte) (rest : List Byte),
    decode (op :: rest) = .error (.unknownOpcode op) ↔
      op ∉ [0x01#8, 0x82#8, 0x47#8, 0x45#8, 0x46#8, 0x50#8, 0x11#8, 0x54#8, 0x55#8, 0x56#8, 0xA0#8,
        0xA1#8, 0xA2#8, 0xA3#8, 0xA4#8, 0xA7#8, 0xA8#8, 0xAA#8, 0xAB#8, 0xAC#8, 0xAD#8]) ∧
  ((List.range 256).filter fun n => (mnemonicOf (BitVec.ofNat 8 n)).isNone).length = 235

/-- R50: an instruction is its opcode byte and 0, 1 or 2 operand bytes at ascending addresses, as many as
bits 7:6 of the opcode say. -/
def Obligations.InstructionLengthIsOnePlusNops : Prop :=
  ∀ (bytes rest : List Byte) (i : Instr), decode bytes = .ok (i, rest) →
    ∃ (op : Byte) (operands : List Byte),
      bytes = op :: (operands ++ rest) ∧ operands.length = (op >>> 6).toNat ∧ operands.length ≤ 2 ∧
      i.operandBytes = operands ∧ i.length = 1 + (op >>> 6).toNat

/-- R51, constraints (b) to (d) of R55: bit 5 marks the ALU class and bit 4 the PC-setting class. -/
def Obligations.OpcodeBitsMarkTheClasses : Prop :=
  ∀ i : Instr, ∃ (op : Byte) (operands : List Byte), encode i = op :: operands ∧
    (op.getLsbD 5 = true ↔
      i.mnemonic ∈ [.add, .sub, .mul, .div, .mod, .cmp, .and, .or, .xor, .shl, .shr]) ∧
    (op.getLsbD 4 = true ↔ i.mnemonic ∈ [.call, .ret, .jmp, .jeq, .jne])

/-- R53: an operand byte selects the register of that index, and none above 7 (D10, log 7). -/
def Obligations.OperandByteSelectsItsRegister : Prop :=
  (∀ (b : Byte) (r : Reg), checkReg b = .ok r ↔ b = r.index) ∧
  (∀ b : Byte, 8 ≤ b.toNat → checkReg b = .error ⟨.invalidRegister, b.setWidth 9⟩) ∧
  [Reg.r0.index, Reg.r1.index, Reg.r2.index, Reg.r3.index, Reg.r4.index, Reg.r5.index, Reg.r6.index,
    Reg.r7.index] = [0#8, 1#8, 2#8, 3#8, 4#8, 5#8, 6#8, 7#8]

/-! ## Memory -/

/-- R31: a read in 0..255 gives the stored byte; any other fails with OutOfRange(addr), which reaches the
caller as a fault that changes nothing else. That INFO is the low 9 bits of any such address (-1, 512, ...) is
the model's choice (DEDUCED, D21, log 8); the spec's machine meets 256 only. -/
def Obligations.MemReadContract : Prop :=
  ∀ (s : State) (addr : Int),
    (0 ≤ addr ∧ addr < 256 → memRead s addr = .ok (byteAt s addr.toNat)) ∧
    (addr < 0 ∨ 256 ≤ addr →
      ∃ tr : Trap, memRead s addr = .error tr ∧ tr.cause = .outOfRange ∧ tr.info = BitVec.ofInt 9 addr ∧
        ∀ k : Byte → Except Trap State,
          conclude s (memRead s addr >>= k) = .next (faulted s .outOfRange (BitVec.ofInt 9 addr)))

/-- R32: a write in 0..255 stores the byte and changes no other cell; any other fails with OutOfRange(addr).
That INFO is the low 9 bits of any such address (-1, 512, ...) is the model's choice (DEDUCED, D21, log 8). The
premise is the invariant of StepKeepsMemoryCanonical. -/
def Obligations.MemWriteContract : Prop :=
  ∀ (s : State) (addr : Int) (v : Byte), MemoryCanonical s →
    (0 ≤ addr ∧ addr < 256 →
      ∃ t, memWrite s addr v = .ok t ∧ byteAt t addr.toNat = v ∧
        (∀ a : Nat, (a : Int) ≠ addr → byteAt t a = byteAt s a) ∧ t = { s with mem := t.mem }) ∧
    (addr < 0 ∨ 256 ≤ addr → memWrite s addr v = .error ⟨.outOfRange, BitVec.ofInt 9 addr⟩)

/-- The canonical form is one: memories in it that hold the same 256 bytes are the same data. -/
def Obligations.CanonicalMemoryIsItsBytes : Prop :=
  ∀ m n : Memory, Memory.wf m = true → Memory.wf n = true →
    (∀ a : Nat, a < 256 → Memory.read m a = Memory.read n a) → m = n

/-- R44: a byte written by PUSH or CALL is what every fetch of its address sees while it stands there (the wrap
of SP: D16, PUSH R7: D18, log 11). -/
def Obligations.FetchSeesStoredByte : Prop :=
  ∀ (s u : State) (r : Reg) (v : Byte), MemoryCanonical s →
    (s.pc.toNat ≤ 254 → ∀ t, exec (.push r.index) s = .next t →
      (v = if r = .r7 then readReg s .r7 - 1#8 else readReg s r) →
      u.mem = t.mem → u.pc.toNat = (readReg s .r7 - 1#8).toNat →
      (fetchWindow u).head? = some v) ∧
    (s.pc.toNat ≤ 253 → ∀ t, exec (.call r.index) s = .next t →
      v.toNat = s.pc.toNat + 2 →
      u.mem = t.mem → u.pc.toNat = (readReg s .r7 - 1#8).toNat →
      (fetchWindow u).head? = some v)

/-! ## The step -/

/-- R70, R74: a running step whose bytes at PC decode to an instruction, well formed or not, is that
instruction's execution; the step adds nothing around it. Bytes past the end of memory: log 4. -/
def Obligations.StepRunsDecodedInstruction : Prop :=
  ∀ (s : State) (i : Instr) (rest : List Byte), s.rs = .running → s.pc.toNat ≤ 255 →
    decode (fetchWindow s) = .ok (i, rest) → step s = exec i s

/-- The same, said of memory: a running step runs the instruction whose encoding stands in memory at PC. -/
def Obligations.StepRunsInstructionInMemory : Prop :=
  ∀ (s : State) (i : Instr), s.rs = .running → s.pc.toNat + i.length ≤ 256 →
    (∀ k : Nat, k < i.length → (encode i)[k]? = some (byteAt s (s.pc.toNat + k))) → step s = exec i s

/-- R75: an operand byte past the end of memory is never looked at, so two instructions that differ only
there do the same. This is why the zeros of log 4 decide nothing. -/
def Obligations.OperandBytesPastMemoryAreUnused : Prop :=
  ∀ (s : State) (i j : Instr), i.mnemonic = j.mnemonic →
    (∀ k : Nat, s.pc.toNat + 1 + k ≤ 255 → i.operandBytes[k]? = j.operandBytes[k]?) →
    exec i s = exec j s

/-- R72: HALTED, ENDED and FAULT are absorbing (D25, log 8): no number of steps changes anything. -/
def Obligations.StoppedEngineNeverMoves : Prop :=
  ∀ (s : State) (n : Nat), s.rs ≠ .running → Host.Core.run core n s = .next s

/-- R71: PC at or past the end of memory ends the run and changes nothing else (D22, log 8). -/
def Obligations.EndOfMemoryEndsTheRun : Prop :=
  ∀ s : State, s.rs = .running → 256 ≤ s.pc.toNat →
    step s = .next { mem := s.mem, regs := s.regs, pc := s.pc, fl := s.fl, rs := .ended,
                     cause := s.cause, info := s.info, out := s.out }

/-- R74, R164: a fetched byte outside the 21 opcodes raises UnknownOpcode with the byte, before any operand
is read: whatever PC is and whatever follows (byte values: D4, log 9; INFO: D21, log 8). -/
def Obligations.UnknownOpcodeFaults : Prop :=
  ∀ s : State, s.rs = .running → s.pc.toNat ≤ 255 →
    byteAt s s.pc.toNat ∉ [0x01#8, 0x82#8, 0x47#8, 0x45#8, 0x46#8, 0x50#8, 0x11#8, 0x54#8, 0x55#8,
      0x56#8, 0xA0#8, 0xA1#8, 0xA2#8, 0xA3#8, 0xA4#8, 0xA7#8, 0xA8#8, 0xAA#8, 0xAB#8, 0xAC#8, 0xAD#8] →
    step s = .next (faulted s .unknownOpcode ((byteAt s s.pc.toNat).setWidth 9))

/-- No step and no instruction stops the machine outside the spec's own state: each answers a next state,
from every state and for every operand (R70, R160, R167; log 6). -/
def Obligations.EveryStepAnswersANextState : Prop :=
  (∀ s : State, ∃ t, step s = .next t) ∧ (∀ (i : Instr) (s : State), ∃ t, exec i s = .next t)

/-- R79, R167: faults are precise. A step that leaves RUNNING for FAULT changes RS, CAUSE and INFO only, and
CAUSE is one of the four a program can reach (D14, log 8; D11, log 13). -/
def Obligations.FaultsArePrecise : Prop :=
  ∀ s t : State, s.rs = .running → step s = .next t → t.rs = .fault →
    t = faulted s t.cause t.info ∧
    (t.cause = .outOfRange ∨ t.cause = .divisionByZero ∨ t.cause = .unknownOpcode ∨ t.cause = .invalidRegister)

/-- R78, R90, R71: a running step ends HALTED exactly when it executes HLT, and ENDED exactly when it finds
PC past memory; only these and a fault leave RUNNING (HLT's byte 0x01: D4, log 9; the test of PC: D22, log 8). -/
def Obligations.RunEndsOnlyByHltOrEndOrFault : Prop :=
  ∀ s t : State, s.rs = .running → step s = .next t →
    (t.rs = .halted ↔ s.pc.toNat ≤ 255 ∧ byteAt s s.pc.toNat = 0x01#8) ∧
    (t.rs = .ended ↔ 256 ≤ s.pc.toNat) ∧
    (t.rs ≠ .running → t.regs = s.regs ∧ t.mem = s.mem ∧ t.fl = s.fl ∧ t.out = s.out)

/-- R170: the normal ends are no faults: CAUSE stays as it was (None, by the invariant), and only RS = FAULT
is gone wrong. An unknown opcode is distinct from a normal halt. -/
def Obligations.NormalEndsAreNoFaults : Prop :=
  (∀ s t : State, s.rs = .running → s.cause = .none → step s = .next t →
    (t.rs = .halted ∨ t.rs = .ended → t.cause = .none ∧ ¬ goneWrong t) ∧
    (s.pc.toNat ≤ 255 → mnemonicOf (byteAt s s.pc.toNat) = none → goneWrong t ∧ t.rs ≠ .halted)) ∧
  (∀ s : State, goneWrong s ↔ s.rs = .fault)

/-! ## Reset and ports -/

/-- R22, R190, R143: what reset leaves, and that the RESET port leaves MEM alone. R0 to R6 and FL: D7, log 1.
RS, CAUSE, INFO: D21, log 8. MEM left alone: D31. Empty memory in State.reset: log 2. -/
def Obligations.ResetValues : Prop :=
  (∀ s : State,
    (assertReset s).pc = 0#9 ∧ readReg (assertReset s) .r7 = 0xF4#8 ∧
    (∀ r : Reg, r ≠ .r7 → readReg (assertReset s) r = 0x00#8) ∧
    (assertReset s).fl = 0x00#8 ∧ (assertReset s).rs = .running ∧ (assertReset s).cause = .none ∧
    (assertReset s).info = 0#9 ∧ (assertReset s).out = [] ∧ (assertReset s).mem = s.mem ∧
    State.reset = { assertReset s with mem := [] }) ∧
  (∀ a : Nat, byteAt State.reset a = 0x00#8)

/-- R141, R191: whatever an earlier run left, a boot leaves the engine in the reset state with MEM = IMAGE: the
program bytes at ascending addresses from 0 and 0x00 at every other address (D8, log 2). -/
def Obligations.BootPlacesTheImage : Prop :=
  ∀ (s : State) (image : List Byte), image.length ≤ 256 →
    (∀ a : Nat, (h : a < image.length) → byteAt (boot s image) a = image[a]) ∧
    (∀ a : Nat, image.length ≤ a → byteAt (boot s image) a = 0x00#8) ∧
    boot s image = { State.reset with mem := (boot s image).mem }

/-- R18, R146: the codes on the STATUS port (D21, log 8). -/
def Obligations.StatusPortCodes : Prop :=
  [RunState.running, .halted, .ended, .fault].map RunState.code = [0#2, 1#2, 2#2, 3#2] ∧
  [Cause.none, .outOfRange, .unsupportedOperation, .divisionByZero, .unknownOpcode, .invalidRegister].map
    Cause.code = [0#3, 1#3, 2#3, 3#3, 4#3, 5#3] ∧
  ∀ s : State, status s = { rs := s.rs.code, cause := s.cause.code, info := s.info, pc := s.pc }

/-- R92, R145: each PRN that completes makes one transfer on OUT, of its register; nothing else makes one,
and no transfer is ever lost (PRN's byte 0x47: D4, log 9; the raw byte on OUT: D23, log 18). -/
def Obligations.OutTransfersOncePerPrn : Prop :=
  ∀ s t : State, step s = .next t →
    t.out = s.out ++ (outTransfer s t).toList ∧
    (∀ v : Byte, outTransfer s t = some v ↔
      ∃ r : Reg, s.rs = .running ∧ s.pc.toNat ≤ 254 ∧ byteAt s s.pc.toNat = 0x47#8 ∧
        byteAt s (s.pc.toNat + 1) = r.index ∧ v = readReg s r)

/-! ## Invariants -/

/-- Every step keeps the canonical form of memory, from every state that has it. -/
def Obligations.StepKeepsMemoryCanonical : Prop :=
  ∀ s t : State, MemoryCanonical s → step s = .next t → MemoryCanonical t

/-- R17: every step keeps at most one of E, G, L at 1 and bits 7:3 of FL at 0 (bit positions: D6, log 10). -/
def Obligations.StepKeepsFlagsExclusive : Prop :=
  ∀ s t : State, FlagsExclusive s → step s = .next t → FlagsExclusive t

/-- R14, R18: every step keeps PC in 0..257 (D3, log 5), and keeps CAUSE None exactly while RS is not FAULT
with an INFO that fits CAUSE; UnsupportedOperation never stands (D21, log 8; D11, log 13; operand bytes above 7:
D10, log 7; illegal opcode bytes: D4, log 9). -/
def Obligations.StepKeepsPcAndStatus : Prop :=
  ∀ s t : State, PcReachable s → StatusConsistent s → step s = .next t → PcReachable t ∧ StatusConsistent t

/-- The invariants of R14, R17, R18 and R30 hold at reset (R22, R190) and after a boot of any image on any
machine (R191). That FL is 0 at reset is D7 (PRESUMED, log 1); that image bytes after the 256th are dropped is
the model's choice (DESIGN CHOICE, D30, log 15). -/
def Obligations.ResetMeetsTheInvariants : Prop :=
  Inv State.reset ∧ ∀ (s : State) (image : List Byte), Inv (boot s image)

/-! ## HLT, LDI, PRN -/

/-- R90: HLT advances PC by 1 (D15, log 8), halts, and changes nothing else, from every state. That PC + 1 is
modulo 512 at the unreachable PC 511 is the model's choice (DEDUCED, log 5). -/
def Obligations.HltHalts : Prop :=
  ∀ s : State, exec .hlt s =
    .next { mem := s.mem, regs := s.regs, pc := s.pc + 1#9, fl := s.fl, rs := .halted,
            cause := s.cause, info := s.info, out := s.out }

/-- R91: LDI puts its immediate in any register, R7 too, and advances PC by 3. -/
def Obligations.LdiLoadsItsImmediate : Prop :=
  ∀ (s : State) (r : Reg) (imm : Byte), s.pc.toNat ≤ 253 →
    ∃ t, exec (.ldi r.index imm) s = .next t ∧ readReg t r = imm ∧ t.pc = s.pc + 3#9 ∧
      RegistersKeptBut [r] s t ∧ MemoryKept s t ∧ t.fl = s.fl ∧ t.out = s.out ∧ StatusKept s t

/-- R92: PRN appends any register's value to OUT and advances PC by 2. -/
def Obligations.PrnEmitsItsRegister : Prop :=
  ∀ (s : State) (r : Reg), s.pc.toNat ≤ 254 →
    ∃ t, exec (.prn r.index) s = .next t ∧ t.out = s.out ++ [readReg s r] ∧ t.pc = s.pc + 2#9 ∧
      RegistersKeptBut [] s t ∧ MemoryKept s t ∧ t.fl = s.fl ∧ StatusKept s t

/-- Frame of HLT, LDI and PRN in every case, faults included (R90 to R92, R11, R17, R34). -/
def Obligations.BaseFrame : Prop :=
  ∀ (s t : State) (a imm : Byte),
    (exec .hlt s = .next t →
      t.regs = s.regs ∧ MemoryKept s t ∧ t.fl = s.fl ∧ t.out = s.out ∧ t.cause = s.cause ∧ t.info = s.info) ∧
    (exec (.ldi a imm) s = .next t →
      (∀ q : Reg, q.index ≠ a → readReg t q = readReg s q) ∧ MemoryKept s t ∧ t.fl = s.fl ∧
      t.out = s.out ∧ (StatusKept s t ∨ Raised s t)) ∧
    (exec (.prn a) s = .next t →
      t.regs = s.regs ∧ MemoryKept s t ∧ t.fl = s.fl ∧ (StatusKept s t ∨ (Raised s t ∧ t.out = s.out)))

/-! ## PUSH, POP -/

/-- R100: PUSH decrements SP modulo 256 (D16, log 11), then stores the register at the new SP; PUSH R7 stores
the decremented SP (D18, log 11). Premise: the invariant of StepKeepsMemoryCanonical. -/
def Obligations.PushStoresItsRegister : Prop :=
  ∀ (s : State) (r : Reg), MemoryCanonical s → s.pc.toNat ≤ 254 →
    ∃ t, exec (.push r.index) s = .next t ∧ readReg t .r7 = readReg s .r7 - 1#8 ∧
      byteAt t (readReg s .r7 - 1#8).toNat = (if r = .r7 then readReg s .r7 - 1#8 else readReg s r) ∧
      t.pc = s.pc + 2#9 ∧ RegistersKeptBut [.r7] s t ∧
      (∀ a : Nat, a ≠ (readReg s .r7 - 1#8).toNat → byteAt t a = byteAt s a) ∧
      t.fl = s.fl ∧ t.out = s.out ∧ StatusKept s t

/-- R101: POP loads the register from MEM[SP], then increments SP modulo 256 (D16, log 11); POP R7 ends with
the loaded value plus 1 (D18, log 11). Memory keeps the popped byte. -/
def Obligations.PopLoadsItsRegister : Prop :=
  ∀ (s : State) (r : Reg), s.pc.toNat ≤ 254 →
    ∃ t, exec (.pop r.index) s = .next t ∧
      (r ≠ .r7 → readReg t r = byteAt s (readReg s .r7).toNat ∧ readReg t .r7 = readReg s .r7 + 1#8) ∧
      (r = .r7 → readReg t .r7 = byteAt s (readReg s .r7).toNat + 1#8) ∧
      t.pc = s.pc + 2#9 ∧ RegistersKeptBut [r, .r7] s t ∧ MemoryKept s t ∧
      t.fl = s.fl ∧ t.out = s.out ∧ StatusKept s t

/-- R103: a PUSH then a POP into another register gives it the pushed value and SP back, for every SP, the
wrap at 0 included, and every source but R7 (D16, log 11). -/
def Obligations.PushThenPopRestores : Prop :=
  ∀ (s t : State) (a d : Reg), MemoryCanonical s → s.pc.toNat ≤ 252 → a ≠ .r7 → d ≠ .r7 →
    exec (.push a.index) s = .next t →
    ∃ u, exec (.pop d.index) t = .next u ∧ readReg u d = readReg s a ∧ readReg u .r7 = readReg s .r7 ∧
      RegistersKeptBut [d] s u

/-- Frame of PUSH, CALL (one byte stored, at the decremented SP) and POP, RET (nothing stored) in every case,
faults included (R11, R17, R34, R104; the wrap of SP: D16, log 11). -/
def Obligations.StackFrame : Prop :=
  ∀ (s t : State) (a : Byte),
    (exec (.push a) s = .next t ∨ exec (.call a) s = .next t →
      RegistersKeptBut [.r7] s t ∧
      (∀ x : Nat, (x : Int) ≠ spAddress (decSp s) → byteAt t x = byteAt s x) ∧
      t.fl = s.fl ∧ t.out = s.out ∧ (StatusKept s t ∨ Raised s t)) ∧
    (exec (.pop a) s = .next t →
      (∀ q : Reg, q.index ≠ a → q ≠ .r7 → readReg t q = readReg s q) ∧ MemoryKept s t ∧
      t.fl = s.fl ∧ t.out = s.out ∧ (StatusKept s t ∨ Raised s t)) ∧
    (exec .ret s = .next t →
      RegistersKeptBut [.r7] s t ∧ MemoryKept s t ∧ t.fl = s.fl ∧ t.out = s.out ∧ StatusKept s t)

/-! ## CALL, RET, JMP, JEQ, JNE -/

/-- R110: CALL pushes PC + 2 and jumps to the register's value, read after SP was decremented, so that CALL R7
jumps to the decremented SP (D18, D16, log 11). Premise: the invariant of StepKeepsMemoryCanonical. -/
def Obligations.CallPushesReturnAddress : Prop :=
  ∀ (s : State) (r : Reg), MemoryCanonical s → s.pc.toNat ≤ 253 →
    ∃ t, exec (.call r.index) s = .next t ∧ readReg t .r7 = readReg s .r7 - 1#8 ∧
      (byteAt t (readReg s .r7 - 1#8).toNat).toNat = s.pc.toNat + 2 ∧
      t.pc.toNat = (if r = .r7 then readReg s .r7 - 1#8 else readReg s r).toNat ∧
      RegistersKeptBut [.r7] s t ∧
      (∀ a : Nat, a ≠ (readReg s .r7 - 1#8).toNat → byteAt t a = byteAt s a) ∧
      t.fl = s.fl ∧ t.out = s.out ∧ StatusKept s t

/-- R110: CALL at address 254 raises OutOfRange(256) and pushes nothing, once its operand is a register (D17,
log 11). -/
def Obligations.CallAt254Faults : Prop :=
  ∀ (s : State) (r : Reg), s.pc = 254#9 → exec (.call r.index) s = .next (faulted s .outOfRange 256#9)

/-- R111: RET is the byte 0x11; it always completes: PC is the byte at SP, SP is incremented with wrap, and no
flag and no memory changes. -/
def Obligations.RetPopsIntoPc : Prop :=
  (∀ rest : List Byte, decode (0x11#8 :: rest) = .ok (.ret, rest)) ∧
  ∀ s : State,
    ∃ t, exec .ret s = .next t ∧ t.pc.toNat = (byteAt s (readReg s .r7).toNat).toNat ∧ t.pc.toNat ≤ 255 ∧
      (readReg t .r7).toNat = ((readReg s .r7).toNat + 1) % 256 ∧ RegistersKeptBut [.r7] s t ∧
      MemoryKept s t ∧ t.fl = s.fl ∧ t.out = s.out ∧ StatusKept s t

/-- R112: JMP sets PC to any register's value. -/
def Obligations.JmpSetsPc : Prop :=
  ∀ (s : State) (r : Reg), s.pc.toNat ≤ 254 →
    ∃ t, exec (.jmp r.index) s = .next t ∧ t.pc.toNat = (readReg s r).toNat ∧ t.regs = s.regs ∧
      MemoryKept s t ∧ t.fl = s.fl ∧ t.out = s.out ∧ StatusKept s t

/-- R113, R114: with E = 1 JEQ jumps to its register and JNE goes on at PC + 2; with E = 0 the other way
round. E is bit 0 of FL (PRESUMED, D6, log 10). The one that goes on reads and checks no operand: any operand
byte, any PC (D12, log 4); that PC + 2 is modulo 512 at the unreachable PCs 510 and 511 is the model's choice
(DEDUCED, log 5). -/
def Obligations.JeqAndJneBranchOnE : Prop :=
  ∀ s : State,
    (s.fl.getLsbD 0 = true →
      (∀ r : Reg, s.pc.toNat ≤ 254 → exec (.jeq r.index) s = .next { s with pc := (readReg s r).setWidth 9 }) ∧
      (∀ a : Byte, exec (.jne a) s = .next { s with pc := s.pc + 2#9 })) ∧
    (s.fl.getLsbD 0 = false →
      (∀ r : Reg, s.pc.toNat ≤ 254 → exec (.jne r.index) s = .next { s with pc := (readReg s r).setWidth 9 }) ∧
      (∀ a : Byte, exec (.jeq a) s = .next { s with pc := s.pc + 2#9 }))

/-- Frame of JMP, JEQ and JNE in every case: PC, or a fault, and nothing else (R11, R17, R112 to R114). -/
def Obligations.BranchFrame : Prop :=
  ∀ (s t : State) (a : Byte),
    exec (.jmp a) s = .next t ∨ exec (.jeq a) s = .next t ∨ exec (.jne a) s = .next t →
    t.regs = s.regs ∧ MemoryKept s t ∧ t.fl = s.fl ∧ t.out = s.out ∧ (StatusKept s t ∨ Raised s t)

/-- R116: a RET executed with the SP that CALL left and the pushed byte intact returns to call site + 2 (the
wrap of SP: D16, log 11). -/
def Obligations.CallThenRetReturns : Prop :=
  ∀ (s t u : State) (r : Reg), MemoryCanonical s → s.pc.toNat ≤ 253 →
    exec (.call r.index) s = .next t → readReg u .r7 = readReg t .r7 →
    byteAt u (readReg t .r7).toNat = byteAt t (readReg t .r7).toNat →
    ∃ w, exec .ret u = .next w ∧ w.pc.toNat = s.pc.toNat + 2 ∧ readReg w .r7 = readReg s .r7

/-- R77: the PC-setting class. PC is exactly the target after CALL, RET, JMP and a taken JEQ or JNE, with
nothing added, and PC + 2 = PC + 1 + NOPS after an untaken one, whatever its operand byte and PC are; bit 4 of
the opcode marks the five opcodes (byte values: D4, log 9). E is bit 0 of FL (PRESUMED, D6, log 10); that
PC + 2 is modulo 512 at the unreachable PCs 510 and 511 is the model's choice (DEDUCED, log 5). -/
def Obligations.PcSettingClass : Prop :=
  (∀ i : Instr, ∃ (op : Byte) (operands : List Byte), encode i = op :: operands ∧
    (op.getLsbD 4 = true ↔ op ∈ [0x50#8, 0x11#8, 0x54#8, 0x55#8, 0x56#8])) ∧
  (∀ (s t : State) (r : Reg),
    (s.pc.toNat ≤ 253 → exec (.call r.index) s = .next t → t.pc = (readReg t r).setWidth 9) ∧
    (exec .ret s = .next t → t.pc = (byteAt s (readReg s .r7).toNat).setWidth 9) ∧
    (s.pc.toNat ≤ 254 → exec (.jmp r.index) s = .next t → t.pc = (readReg s r).setWidth 9) ∧
    (s.pc.toNat ≤ 254 → s.fl.getLsbD 0 = true → exec (.jeq r.index) s = .next t →
      t.pc = (readReg s r).setWidth 9) ∧
    (s.pc.toNat ≤ 254 → s.fl.getLsbD 0 = false → exec (.jne r.index) s = .next t →
      t.pc = (readReg s r).setWidth 9)) ∧
  (∀ (s t : State) (a : Byte),
    (s.fl.getLsbD 0 = false → exec (.jeq a) s = .next t →
      t.pc = s.pc + BitVec.ofNat 9 (1 + opcodeNops 0x55#8)) ∧
    (s.fl.getLsbD 0 = true → exec (.jne a) s = .next t →
      t.pc = s.pc + BitVec.ofNat 9 (1 + opcodeNops 0x56#8))) ∧
  1 + opcodeNops 0x55#8 = 2 ∧ 1 + opcodeNops 0x56#8 = 2

/-- R76: the generic advance of HLT, PRN, PUSH, POP, LDI and the ALU instructions: 1 + operand count =
1 + opcode[7:6], in 9 bits with no wrap, and only when the instruction did not raise. The bound leaves out
one completion, HLT at PC 511, whose 9-bit sum would wrap: StepKeepsPcAndStatus keeps PC in 0..257 (R14), and
HltHalts covers it. -/
def Obligations.GenericPcAdvance : Prop :=
  ∀ (i : Instr) (s t : State), i.mnemonic ∉ [.call, .ret, .jmp, .jeq, .jne] → exec i s = .next t →
    (Raised s t ∧ t.pc = s.pc) ∨
    ((s.pc.toNat + 1 + i.operandBytes.length < 512 → t.pc.toNat = s.pc.toNat + 1 + i.operandBytes.length) ∧
      i.operandBytes.length = opcodeNops i.mnemonic.opcode ∧
      (i.mnemonic = .hlt → i.operandBytes.length = 0) ∧
      (i.mnemonic ∈ [.prn, .push, .pop] → i.operandBytes.length = 1) ∧
      (i.mnemonic ∉ [.hlt, .prn, .push, .pop] → i.operandBytes.length = 2))

/-! ## The ALU -/

/-- R121 to R123, R126: ADD, SUB and MUL wrap modulo 256, for all registers, a = b and R7 included. -/
def Obligations.AddSubMulWrap : Prop :=
  ∀ (s : State) (ra rb : Reg), s.pc.toNat ≤ 253 →
    (∃ t, exec (.add ra.index rb.index) s = .next t ∧ t.pc = s.pc + 3#9 ∧
      (readReg t ra).toNat = ((readReg s ra).toNat + (readReg s rb).toNat) % 256 ∧ RegistersKeptBut [ra] s t) ∧
    (∃ t, exec (.sub ra.index rb.index) s = .next t ∧ t.pc = s.pc + 3#9 ∧
      ((readReg t ra).toNat : Int) = ((readReg s ra).toNat - (readReg s rb).toNat : Int) % 256 ∧
      RegistersKeptBut [ra] s t) ∧
    (∃ t, exec (.mul ra.index rb.index) s = .next t ∧ t.pc = s.pc + 3#9 ∧
      (readReg t ra).toNat = ((readReg s ra).toNat * (readReg s rb).toNat) % 256 ∧ RegistersKeptBut [ra] s t)

/-- R124, R125, R126: with a divisor that is not 0, DIV gives the quotient and MOD the remainder of unsigned
division (D20): va = q * vb + r with 0 <= r < vb. -/
def Obligations.DivModQuotientRemainder : Prop :=
  ∀ (s : State) (ra rb : Reg), s.pc.toNat ≤ 253 → readReg s rb ≠ 0#8 →
    ∃ t u, exec (.div ra.index rb.index) s = .next t ∧ exec (.mod ra.index rb.index) s = .next u ∧
      (readReg s ra).toNat = (readReg t ra).toNat * (readReg s rb).toNat + (readReg u ra).toNat ∧
      (readReg u ra).toNat < (readReg s rb).toNat ∧
      t.pc = s.pc + 3#9 ∧ u.pc = s.pc + 3#9 ∧ RegistersKeptBut [ra] s t ∧ RegistersKeptBut [ra] s u

/-- R124, R125, R163: a divisor of 0 raises DivisionByZero with the divisor's register index and writes
nothing, PC included, once the operands are read and valid (D13, D14, D21, log 8). -/
def Obligations.DivModByZeroFaults : Prop :=
  ∀ (s : State) (ra rb : Reg), s.pc.toNat ≤ 253 → readReg s rb = 0#8 →
    exec (.div ra.index rb.index) s = .next (faulted s .divisionByZero (rb.index.setWidth 9)) ∧
    exec (.mod ra.index rb.index) s = .next (faulted s .divisionByZero (rb.index.setWidth 9))

/-- R130: CMP sets exactly one flag of the unsigned comparison, the first operand on the left, and writes no
register (flag positions: D6, log 10). -/
def Obligations.CmpSetsExactlyOneFlag : Prop :=
  ∀ (s : State) (ra rb : Reg), s.pc.toNat ≤ 253 →
    ∃ t, exec (.cmp ra.index rb.index) s = .next t ∧ t.regs = s.regs ∧ t.pc = s.pc + 3#9 ∧
      t.fl = (if (readReg s ra).toNat = (readReg s rb).toNat then 0b00000001#8
              else if (readReg s ra).toNat < (readReg s rb).toNat then 0b00000100#8 else 0b00000010#8)

/-- R131 to R133: AND, OR and XOR, bit by bit. -/
def Obligations.AndOrXorBitwise : Prop :=
  ∀ (s : State) (ra rb : Reg), s.pc.toNat ≤ 253 →
    (∃ t, exec (.and ra.index rb.index) s = .next t ∧ t.pc = s.pc + 3#9 ∧ RegistersKeptBut [ra] s t ∧
      ∀ k : Nat, k < 8 → (readReg t ra).getLsbD k = ((readReg s ra).getLsbD k && (readReg s rb).getLsbD k)) ∧
    (∃ t, exec (.or ra.index rb.index) s = .next t ∧ t.pc = s.pc + 3#9 ∧ RegistersKeptBut [ra] s t ∧
      ∀ k : Nat, k < 8 → (readReg t ra).getLsbD k = ((readReg s ra).getLsbD k || (readReg s rb).getLsbD k)) ∧
    (∃ t, exec (.xor ra.index rb.index) s = .next t ∧ t.pc = s.pc + 3#9 ∧ RegistersKeptBut [ra] s t ∧
      ∀ k : Nat, k < 8 → (readReg t ra).getLsbD k = ((readReg s ra).getLsbD k ^^ (readReg s rb).getLsbD k))

/-- R134, R135: SHL is (va * 2^vb) mod 256 and SHR is va div 2^vb for every count 0..255, so that a count of 8
or more gives 0 (D19, log 12). -/
def Obligations.ShiftsByTheWholeCount : Prop :=
  ∀ (s : State) (ra rb : Reg), s.pc.toNat ≤ 253 →
    ∃ t u, exec (.shl ra.index rb.index) s = .next t ∧ exec (.shr ra.index rb.index) s = .next u ∧
      (readReg t ra).toNat = ((readReg s ra).toNat * 2 ^ (readReg s rb).toNat) % 256 ∧
      (readReg u ra).toNat = (readReg s ra).toNat / 2 ^ (readReg s rb).toNat ∧
      (8 ≤ (readReg s rb).toNat → readReg t ra = 0#8 ∧ readReg u ra = 0#8) ∧
      t.pc = s.pc + 3#9 ∧ u.pc = s.pc + 3#9 ∧ RegistersKeptBut [ra] s t ∧ RegistersKeptBut [ra] s u

/-- Frame of the eleven ALU instructions in every case, faults included: register a alone may change, CMP
writes FL and no register, the others leave FL (R11, R17, R120; D32, log 18). -/
def Obligations.AluFrame : Prop :=
  ∀ (i : Instr) (s t : State), exec i s = .next t →
    (∀ a b : Byte,
      i = .add a b ∨ i = .sub a b ∨ i = .mul a b ∨ i = .div a b ∨ i = .mod a b ∨ i = .and a b ∨
        i = .or a b ∨ i = .xor a b ∨ i = .shl a b ∨ i = .shr a b →
      (∀ q : Reg, q.index ≠ a → readReg t q = readReg s q) ∧ t.fl = s.fl ∧ MemoryKept s t ∧
        t.out = s.out ∧ (StatusKept s t ∨ Raised s t)) ∧
    (∀ a b : Byte, i = .cmp a b →
      t.regs = s.regs ∧ MemoryKept s t ∧ t.out = s.out ∧ (StatusKept s t ∨ (Raised s t ∧ t.fl = s.fl)))

/-- R80, R162: the ALU block answers `unsupported` exactly for a select outside its eleven, `div_zero`
exactly for DIV and MOD by 0, writes flags exactly for CMP, and writes the register otherwise (the select as
the opcode byte: log 13). -/
def Obligations.AluBlockOutputs : Prop :=
  ∀ sel va vb : Byte,
    ((aluApply sel va vb).unsupported = true ↔
      sel ∉ [0xA0#8, 0xA1#8, 0xA2#8, 0xA3#8, 0xA4#8, 0xA7#8, 0xA8#8, 0xAA#8, 0xAB#8, 0xAC#8, 0xAD#8]) ∧
    ((aluApply sel va vb).divZero = true ↔ sel ∈ [0xA3#8, 0xA4#8] ∧ vb = 0#8) ∧
    ((aluApply sel va vb).writeFlags = true ↔ sel = 0xA7#8) ∧
    ((aluApply sel va vb).writeReg = true ↔
      sel ∈ [0xA0#8, 0xA1#8, 0xA2#8, 0xA3#8, 0xA4#8, 0xA8#8, 0xAA#8, 0xAB#8, 0xAC#8, 0xAD#8] ∧
        (aluApply sel va vb).divZero = false)

/-! ## Faults of the operands -/

/-- R75, R161, R166: an operand read at address 256 raises OutOfRange(256) before any other check: every
2-byte instruction at 255 (JEQ and JNE when taken: D12, log 4; E is bit 0 of FL: PRESUMED, D6, log 10) and
every 3-byte one at 254 and 255 (priority: D13, log 8). -/
def Obligations.OperandReadPastMemoryFaults : Prop :=
  ∀ (s : State) (a b : Byte),
    (s.pc = 255#9 →
      (∀ i ∈ [Instr.prn a, .push a, .pop a, .call a, .jmp a],
        exec i s = .next (faulted s .outOfRange 256#9)) ∧
      (s.fl.getLsbD 0 = true → exec (.jeq a) s = .next (faulted s .outOfRange 256#9)) ∧
      (s.fl.getLsbD 0 = false → exec (.jne a) s = .next (faulted s .outOfRange 256#9))) ∧
    (s.pc = 254#9 ∨ s.pc = 255#9 →
      ∀ i ∈ [Instr.ldi a b, .add a b, .sub a b, .mul a b, .div a b, .mod a b, .cmp a b, .and a b,
          .or a b, .xor a b, .shl a b, .shr a b],
        exec i s = .next (faulted s .outOfRange 256#9))

/-- R165, R166, R168: a register operand byte above 7 raises InvalidRegister with the byte: operand a of every
instruction that uses one (JEQ and JNE when taken), then operand b of the ALU instructions, before CALL's
return-address check and the zero divisor (D10, log 7; D13, log 8; E is bit 0 of FL: PRESUMED, D6, log 10). -/
def Obligations.InvalidRegisterFaults : Prop :=
  ∀ (s : State) (a b : Byte),
    (8 ≤ a.toNat → s.pc.toNat ≤ 254 →
      (∀ i ∈ [Instr.prn a, .push a, .pop a, .call a, .jmp a],
        exec i s = .next (faulted s .invalidRegister (a.setWidth 9))) ∧
      (s.fl.getLsbD 0 = true → exec (.jeq a) s = .next (faulted s .invalidRegister (a.setWidth 9))) ∧
      (s.fl.getLsbD 0 = false → exec (.jne a) s = .next (faulted s .invalidRegister (a.setWidth 9)))) ∧
    (8 ≤ a.toNat → s.pc.toNat ≤ 253 →
      ∀ i ∈ [Instr.ldi a b, .add a b, .sub a b, .mul a b, .div a b, .mod a b, .cmp a b, .and a b,
          .or a b, .xor a b, .shl a b, .shr a b],
        exec i s = .next (faulted s .invalidRegister (a.setWidth 9))) ∧
    (a.toNat ≤ 7 → 8 ≤ b.toNat → s.pc.toNat ≤ 253 →
      ∀ i ∈ [Instr.add a b, .sub a b, .mul a b, .div a b, .mod a b, .cmp a b, .and a b,
          .or a b, .xor a b, .shl a b, .shr a b],
        exec i s = .next (faulted s .invalidRegister (b.setWidth 9)))

/-! ## Sequences and whole-machine rules -/

/-- The source's property of LDI and PRN (R91, R92; 95_test_vectors.md E4): LDI then PRN of the same register
outputs the immediate. -/
def Obligations.LdiThenPrnOutputsTheValue : Prop :=
  ∀ (s t : State) (r : Reg) (v : Byte), s.pc.toNat ≤ 251 → exec (.ldi r.index v) s = .next t →
    ∃ u, exec (.prn r.index) t = .next u ∧ u.out = s.out ++ [v] ∧ readReg u r = v ∧
      u.pc.toNat = s.pc.toNat + 5

/-- The source's property of CMP (R113, R114, R130; 95_test_vectors.md E7): after CMP, JEQ branches iff the
two compared values are equal and JNE iff they are not. -/
def Obligations.CmpThenBranchIffEqual : Prop :=
  ∀ (s t : State) (ra rb rt : Reg), s.pc.toNat ≤ 251 → exec (.cmp ra.index rb.index) s = .next t →
    ∃ u w, exec (.jeq rt.index) t = .next u ∧ exec (.jne rt.index) t = .next w ∧
      (readReg s ra = readReg s rb →
        u.pc.toNat = (readReg s rt).toNat ∧ w.pc.toNat = s.pc.toNat + 5) ∧
      (readReg s ra ≠ readReg s rb →
        u.pc.toNat = s.pc.toNat + 5 ∧ w.pc.toNat = (readReg s rt).toNat)

/-- R34, R104: memory data is read and written by the four stack instructions only. Every other instruction
does the same whatever memory holds and leaves it as it is. -/
def Obligations.OnlyStackInstructionsTouchMemory : Prop :=
  ∀ (i : Instr) (s t : State) (m : Memory), i.mnemonic ∉ [.push, .pop, .call, .ret] → exec i s = .next t →
    t.mem = s.mem ∧ exec i { s with mem := m } = .next { t with mem := m }

/-- R17: no instruction reads L or G. Replace FL by any byte with the same E: every instruction but CMP does
the same and leaves that byte, and CMP does the same altogether when it completes. E is bit 0 of FL (PRESUMED,
D6, log 10). -/
def Obligations.NoInstructionReadsLOrG : Prop :=
  ∀ (i : Instr) (s t : State) (f : Byte), f.getLsbD 0 = s.fl.getLsbD 0 → exec i s = .next t →
    (i.mnemonic ≠ .cmp → t.fl = s.fl ∧ exec i { s with fl := f } = .next { t with fl := f }) ∧
    (i.mnemonic = .cmp →
      (Raised s t ∧ exec i { s with fl := f } = .next { t with fl := f }) ∨
      exec i { s with fl := f } = .next t)
end

