-- ==== Sys2Proof/Laws/State.lean ====
section
/-!
SUPPORT. What each update of the state leaves in each field, so that no proof unfolds a record update, and
the same for a register read after it.
-/

namespace Sys2Proof.Machine

/-! ### writeReg -/

@[simp] theorem writeReg_mem (s : State) (r : Reg) (v : Byte) :
    (writeReg s r v).mem = s.mem := rfl

@[simp] theorem writeReg_regs (s : State) (r : Reg) (v : Byte) :
    (writeReg s r v).regs = s.regs.set r v := rfl

@[simp] theorem writeReg_pc (s : State) (r : Reg) (v : Byte) :
    (writeReg s r v).pc = s.pc := rfl

@[simp] theorem writeReg_fl (s : State) (r : Reg) (v : Byte) :
    (writeReg s r v).fl = s.fl := rfl

@[simp] theorem writeReg_rs (s : State) (r : Reg) (v : Byte) :
    (writeReg s r v).rs = s.rs := rfl

@[simp] theorem writeReg_cause (s : State) (r : Reg) (v : Byte) :
    (writeReg s r v).cause = s.cause := rfl

@[simp] theorem writeReg_info (s : State) (r : Reg) (v : Byte) :
    (writeReg s r v).info = s.info := rfl

@[simp] theorem writeReg_out (s : State) (r : Reg) (v : Byte) :
    (writeReg s r v).out = s.out := rfl


/-! ### decSp -/

@[simp] theorem decSp_mem (s : State) :
    (decSp s).mem = s.mem := rfl

@[simp] theorem decSp_regs (s : State) :
    (decSp s).regs = s.regs.set sp (readReg s sp - 1#8) := rfl

@[simp] theorem decSp_pc (s : State) :
    (decSp s).pc = s.pc := rfl

@[simp] theorem decSp_fl (s : State) :
    (decSp s).fl = s.fl := rfl

@[simp] theorem decSp_rs (s : State) :
    (decSp s).rs = s.rs := rfl

@[simp] theorem decSp_cause (s : State) :
    (decSp s).cause = s.cause := rfl

@[simp] theorem decSp_info (s : State) :
    (decSp s).info = s.info := rfl

@[simp] theorem decSp_out (s : State) :
    (decSp s).out = s.out := rfl


/-! ### incSp -/

@[simp] theorem incSp_mem (s : State) :
    (incSp s).mem = s.mem := rfl

@[simp] theorem incSp_regs (s : State) :
    (incSp s).regs = s.regs.set sp (readReg s sp + 1#8) := rfl

@[simp] theorem incSp_pc (s : State) :
    (incSp s).pc = s.pc := rfl

@[simp] theorem incSp_fl (s : State) :
    (incSp s).fl = s.fl := rfl

@[simp] theorem incSp_rs (s : State) :
    (incSp s).rs = s.rs := rfl

@[simp] theorem incSp_cause (s : State) :
    (incSp s).cause = s.cause := rfl

@[simp] theorem incSp_info (s : State) :
    (incSp s).info = s.info := rfl

@[simp] theorem incSp_out (s : State) :
    (incSp s).out = s.out := rfl


/-! ### advance -/

@[simp] theorem advance_mem (s : State) (n : Nat) :
    (advance s n).mem = s.mem := rfl

@[simp] theorem advance_regs (s : State) (n : Nat) :
    (advance s n).regs = s.regs := rfl

@[simp] theorem advance_pc (s : State) (n : Nat) :
    (advance s n).pc = s.pc + BitVec.ofNat 9 n := rfl

@[simp] theorem advance_fl (s : State) (n : Nat) :
    (advance s n).fl = s.fl := rfl

@[simp] theorem advance_rs (s : State) (n : Nat) :
    (advance s n).rs = s.rs := rfl

@[simp] theorem advance_cause (s : State) (n : Nat) :
    (advance s n).cause = s.cause := rfl

@[simp] theorem advance_info (s : State) (n : Nat) :
    (advance s n).info = s.info := rfl

@[simp] theorem advance_out (s : State) (n : Nat) :
    (advance s n).out = s.out := rfl

@[simp] theorem readReg_advance (s : State) (n : Nat) (q : Reg) :
    readReg (advance s n) q = readReg s q := rfl

/-! ### jumpTo -/

@[simp] theorem jumpTo_mem (s : State) (v : Byte) :
    (jumpTo s v).mem = s.mem := rfl

@[simp] theorem jumpTo_regs (s : State) (v : Byte) :
    (jumpTo s v).regs = s.regs := rfl

@[simp] theorem jumpTo_pc (s : State) (v : Byte) :
    (jumpTo s v).pc = zext9 v := rfl

@[simp] theorem jumpTo_fl (s : State) (v : Byte) :
    (jumpTo s v).fl = s.fl := rfl

@[simp] theorem jumpTo_rs (s : State) (v : Byte) :
    (jumpTo s v).rs = s.rs := rfl

@[simp] theorem jumpTo_cause (s : State) (v : Byte) :
    (jumpTo s v).cause = s.cause := rfl

@[simp] theorem jumpTo_info (s : State) (v : Byte) :
    (jumpTo s v).info = s.info := rfl

@[simp] theorem jumpTo_out (s : State) (v : Byte) :
    (jumpTo s v).out = s.out := rfl

@[simp] theorem readReg_jumpTo (s : State) (v : Byte) (q : Reg) :
    readReg (jumpTo s v) q = readReg s q := rfl

/-! ### setFlags -/

@[simp] theorem setFlags_mem (s : State) (v : Byte) :
    (setFlags s v).mem = s.mem := rfl

@[simp] theorem setFlags_regs (s : State) (v : Byte) :
    (setFlags s v).regs = s.regs := rfl

@[simp] theorem setFlags_pc (s : State) (v : Byte) :
    (setFlags s v).pc = s.pc := rfl

@[simp] theorem setFlags_fl (s : State) (v : Byte) :
    (setFlags s v).fl = v := rfl

@[simp] theorem setFlags_rs (s : State) (v : Byte) :
    (setFlags s v).rs = s.rs := rfl

@[simp] theorem setFlags_cause (s : State) (v : Byte) :
    (setFlags s v).cause = s.cause := rfl

@[simp] theorem setFlags_info (s : State) (v : Byte) :
    (setFlags s v).info = s.info := rfl

@[simp] theorem setFlags_out (s : State) (v : Byte) :
    (setFlags s v).out = s.out := rfl

@[simp] theorem readReg_setFlags (s : State) (v : Byte) (q : Reg) :
    readReg (setFlags s v) q = readReg s q := rfl

/-! ### emit -/

@[simp] theorem emit_mem (s : State) (v : Byte) :
    (emit s v).mem = s.mem := rfl

@[simp] theorem emit_regs (s : State) (v : Byte) :
    (emit s v).regs = s.regs := rfl

@[simp] theorem emit_pc (s : State) (v : Byte) :
    (emit s v).pc = s.pc := rfl

@[simp] theorem emit_fl (s : State) (v : Byte) :
    (emit s v).fl = s.fl := rfl

@[simp] theorem emit_rs (s : State) (v : Byte) :
    (emit s v).rs = s.rs := rfl

@[simp] theorem emit_cause (s : State) (v : Byte) :
    (emit s v).cause = s.cause := rfl

@[simp] theorem emit_info (s : State) (v : Byte) :
    (emit s v).info = s.info := rfl

@[simp] theorem emit_out (s : State) (v : Byte) :
    (emit s v).out = s.out ++ [v] := rfl

@[simp] theorem readReg_emit (s : State) (v : Byte) (q : Reg) :
    readReg (emit s v) q = readReg s q := rfl

/-! ### halt -/

@[simp] theorem halt_mem (s : State) (how : RunState) :
    (halt s how).mem = s.mem := rfl

@[simp] theorem halt_regs (s : State) (how : RunState) :
    (halt s how).regs = s.regs := rfl

@[simp] theorem halt_pc (s : State) (how : RunState) :
    (halt s how).pc = s.pc := rfl

@[simp] theorem halt_fl (s : State) (how : RunState) :
    (halt s how).fl = s.fl := rfl

@[simp] theorem halt_rs (s : State) (how : RunState) :
    (halt s how).rs = how := rfl

@[simp] theorem halt_cause (s : State) (how : RunState) :
    (halt s how).cause = s.cause := rfl

@[simp] theorem halt_info (s : State) (how : RunState) :
    (halt s how).info = s.info := rfl

@[simp] theorem halt_out (s : State) (how : RunState) :
    (halt s how).out = s.out := rfl

@[simp] theorem readReg_halt (s : State) (how : RunState) (q : Reg) :
    readReg (halt s how) q = readReg s q := rfl

/-! ### takeFault -/

@[simp] theorem takeFault_mem (s : State) (t : Trap) :
    (takeFault s t).mem = s.mem := rfl

@[simp] theorem takeFault_regs (s : State) (t : Trap) :
    (takeFault s t).regs = s.regs := rfl

@[simp] theorem takeFault_pc (s : State) (t : Trap) :
    (takeFault s t).pc = s.pc := rfl

@[simp] theorem takeFault_fl (s : State) (t : Trap) :
    (takeFault s t).fl = s.fl := rfl

@[simp] theorem takeFault_rs (s : State) (t : Trap) :
    (takeFault s t).rs = .fault := rfl

@[simp] theorem takeFault_cause (s : State) (t : Trap) :
    (takeFault s t).cause = t.cause := rfl

@[simp] theorem takeFault_info (s : State) (t : Trap) :
    (takeFault s t).info = t.info := rfl

@[simp] theorem takeFault_out (s : State) (t : Trap) :
    (takeFault s t).out = s.out := rfl

@[simp] theorem readReg_takeFault (s : State) (t : Trap) (q : Reg) :
    readReg (takeFault s t) q = readReg s q := rfl

/-! ### assertReset -/

@[simp] theorem assertReset_mem (s : State) :
    (assertReset s).mem = s.mem := rfl

@[simp] theorem assertReset_regs (s : State) :
    (assertReset s).regs = Regs.reset := rfl

@[simp] theorem assertReset_pc (s : State) :
    (assertReset s).pc = Config.pcReset := rfl

@[simp] theorem assertReset_fl (s : State) :
    (assertReset s).fl = Config.flagsReset := rfl

@[simp] theorem assertReset_rs (s : State) :
    (assertReset s).rs = .running := rfl

@[simp] theorem assertReset_cause (s : State) :
    (assertReset s).cause = .none := rfl

@[simp] theorem assertReset_info (s : State) :
    (assertReset s).info = 0#9 := rfl

@[simp] theorem assertReset_out (s : State) :
    (assertReset s).out = [] := rfl


/-! ### Registers -/

theorem Regs.get_set (g : Regs) (r q : Reg) (v : Byte) :
    (g.set r v).get q = if q = r then v else g.get q := by
  cases r <;> cases q <;> rfl

theorem Regs.ext_get (g h : Regs) (e : ∀ r, g.get r = h.get r) : g = h := by
  cases g; cases h
  have := e .r0; have := e .r1; have := e .r2; have := e .r3
  have := e .r4; have := e .r5; have := e .r6; have := e .r7
  simp_all [Regs.get]

theorem readReg_writeReg (s : State) (r q : Reg) (v : Byte) :
    readReg (writeReg s r v) q = if q = r then v else readReg s q :=
  Regs.get_set s.regs r q v

@[simp] theorem readReg_writeReg_same (s : State) (r : Reg) (v : Byte) :
    readReg (writeReg s r v) r = v := by simp [readReg_writeReg]

theorem readReg_writeReg_ne (s : State) {r q : Reg} (v : Byte) (h : q ≠ r) :
    readReg (writeReg s r v) q = readReg s q := by simp [readReg_writeReg, h]

theorem readReg_decSp (s : State) (q : Reg) :
    readReg (decSp s) q = if q = sp then readReg s sp - 1#8 else readReg s q :=
  readReg_writeReg s sp q _

theorem readReg_incSp (s : State) (q : Reg) :
    readReg (incSp s) q = if q = sp then readReg s sp + 1#8 else readReg s q :=
  readReg_writeReg s sp q _

@[simp] theorem readReg_with_mem (s : State) (m : Memory) (q : Reg) :
    readReg { s with mem := m } q = readReg s q := rfl

end Sys2Proof.Machine
end

