-- ==== Sys2Proof/Laws/Memory.lean ====
section
/-!
SUPPORT. The laws of memory: a read after a write, the canonical form of Memory.write and
Memory.place, and that canonical memories with equal bytes are equal.
-/

namespace Sys2Proof.Machine

/-! ### Read after write -/

theorem Memory.read_write_same (m : Memory) (a : Nat) (v : Byte) (lo : Nat)
    (h : Memory.wfFrom lo m = true) : Memory.read (Memory.write m a v) a = v := by
  induction m generalizing lo with
  | nil => by_cases hv : v = Config.unloadedByte <;> simp [Memory.write, Memory.read, hv]
  | cons c rest ih =>
    obtain ⟨k, b⟩ := c
    simp only [Memory.wfFrom, Bool.and_eq_true, decide_eq_true_eq] at h
    have absent : ∀ (m : Memory) (l : Nat), Memory.wfFrom l m = true → a < l →
        Memory.read m a = Config.unloadedByte := by
      intro m
      induction m with
      | nil => intro l _ _; rfl
      | cons c rest ih =>
        obtain ⟨k, b⟩ := c
        intro l h hl
        simp only [Memory.wfFrom, Bool.and_eq_true, decide_eq_true_eq] at h
        have hk : k ≠ a := by omega
        simp only [Memory.read, hk, if_false]
        exact ih (k + 1) h.2 (by omega)
    simp only [Memory.write]
    split
    · have hk : k ≠ a := by omega
      simp only [Memory.read, hk, if_false]
      exact ih _ h.2
    · split
      · next hka =>
        split
        · next hv => rw [hv]; exact absent rest _ h.2 (by omega)
        · simp [Memory.read]
      · split
        · next hk _ hv =>
          rw [hv]; simp only [Memory.read]
          rw [if_neg (by omega)]
          exact absent rest _ h.2 (by omega)
        · simp [Memory.read]

theorem Memory.read_write_ne (m : Memory) (a a' : Nat) (v : Byte) (h : a' ≠ a) :
    Memory.read (Memory.write m a v) a' = Memory.read m a' := by
  induction m with
  | nil =>
    simp only [Memory.write]
    split
    · rfl
    · simp [Memory.read, Ne.symm h]
  | cons c rest ih =>
    obtain ⟨k, b⟩ := c
    simp only [Memory.write]
    split
    · simp only [Memory.read, ih]
    · split
      · next hka =>
        subst hka
        split <;> simp [Memory.read, Ne.symm h]
      · split <;> simp [Memory.read, Ne.symm h]

theorem Memory.read_write (m : Memory) (a a' : Nat) (v : Byte) (h : Memory.wf m = true) :
    Memory.read (Memory.write m a v) a' = if a' = a then v else Memory.read m a' := by
  split
  · next e => subst e; exact Memory.read_write_same m _ v 0 h
  · next e => exact Memory.read_write_ne m a a' v e

/-! ### The canonical form -/

theorem Memory.wfFrom_mono {lo lo' : Nat} {m : Memory} (h : Memory.wfFrom lo m = true) (hle : lo' ≤ lo) :
    Memory.wfFrom lo' m = true := by
  cases m with
  | nil => rfl
  | cons c rest =>
    obtain ⟨k, b⟩ := c
    simp only [Memory.wfFrom, Bool.and_eq_true, decide_eq_true_eq] at h ⊢
    exact ⟨⟨⟨by omega, h.1.1.2⟩, h.1.2⟩, h.2⟩

theorem Memory.wfFrom_write {lo : Nat} {m : Memory} {a : Nat} {v : Byte}
    (h : Memory.wfFrom lo m = true) (hlo : lo ≤ a) (ha : a < Config.memoryBytes) :
    Memory.wfFrom lo (Memory.write m a v) = true := by
  induction m generalizing lo with
  | nil =>
    simp only [Memory.write]
    split
    · rfl
    · next hv => simp [Memory.wfFrom, hlo, ha, hv]
  | cons c rest ih =>
    obtain ⟨k, b⟩ := c
    have h0 := h
    simp only [Memory.wfFrom, Bool.and_eq_true, decide_eq_true_eq] at h
    obtain ⟨⟨⟨hk1, hk2⟩, hk3⟩, hr⟩ := h
    simp only [Memory.write]
    split
    · next hka =>
      simp only [Memory.wfFrom, Bool.and_eq_true, decide_eq_true_eq]
      exact ⟨⟨⟨hk1, hk2⟩, hk3⟩, ih hr (by omega)⟩
    · split
      · next hka =>
        split
        · exact Memory.wfFrom_mono hr (by omega)
        · next hv =>
          simp only [Memory.wfFrom, Bool.and_eq_true, decide_eq_true_eq]
          exact ⟨⟨⟨hlo, ha⟩, hv⟩, by rw [← hka]; exact hr⟩
      · split
        · exact h0
        · next hv =>
          simp only [Memory.wfFrom, Bool.and_eq_true, decide_eq_true_eq]
          exact ⟨⟨⟨hlo, ha⟩, hv⟩, ⟨⟨by omega, hk2⟩, hk3⟩, hr⟩

theorem Memory.wf_write {m : Memory} {a : Nat} (v : Byte) (h : Memory.wf m = true)
    (ha : a < Config.memoryBytes) : Memory.wf (Memory.write m a v) = true :=
  Memory.wfFrom_write h (Nat.zero_le a) ha

theorem Memory.wf_place (m : Memory) (a : Nat) (bytes : List Byte) (h : Memory.wf m = true) :
    Memory.wf (Memory.place m a bytes) = true := by
  induction bytes generalizing m a with
  | nil => exact h
  | cons b rest ih =>
    simp only [Memory.place]
    apply ih
    split
    · next ha => exact Memory.wf_write b h ha
    · exact h

theorem Memory.wf_reset : Memory.wf State.reset.mem = true := rfl

/-- A byte below the first listed address reads as an unlisted one. -/
theorem Memory.read_below {m : Memory} {lo a : Nat} (h : Memory.wfFrom lo m = true) (ha : a < lo) :
    Memory.read m a = Config.unloadedByte := by
  induction m generalizing lo with
  | nil => rfl
  | cons c rest ih =>
    obtain ⟨k, b⟩ := c
    simp only [Memory.wfFrom, Bool.and_eq_true, decide_eq_true_eq] at h
    simp only [Memory.read]
    rw [if_neg (by omega)]
    exact ih h.2 (by omega)

/-- Reading a placed list: the byte of the list where it lies, the old byte elsewhere. -/
theorem Memory.read_place (m : Memory) (a : Nat) (bytes : List Byte) (h : Memory.wf m = true)
    (x : Nat) (hx : x < Config.memoryBytes) :
    Memory.read (Memory.place m a bytes) x
      = if a ≤ x ∧ x < a + bytes.length then bytes.getD (x - a) 0#8 else Memory.read m x := by
  induction bytes generalizing m a with
  | nil =>
    have hno : ¬ (a ≤ x ∧ x < a + ([] : List Byte).length) := by simp
    rw [if_neg hno]; rfl
  | cons b rest ih =>
    simp only [Memory.place]
    have hw : Memory.wf (if a < Config.memoryBytes then Memory.write m a b else m) = true := by
      split
      · next ha => exact Memory.wf_write b h ha
      · exact h
    rw [ih _ (a + 1) hw]
    simp only [List.length_cons]
    by_cases hxa : x = a
    · subst hxa
      rw [if_neg (by omega), if_pos hx, if_pos (by omega), Memory.read_write m x x b h]
      simp
    · by_cases hin : a + 1 ≤ x ∧ x < a + 1 + rest.length
      · rw [if_pos hin, if_pos (by omega)]
        have hsub : x - a = (x - (a + 1)) + 1 := by omega
        rw [hsub, List.getD_cons_succ]
      · have hout : ¬ (a ≤ x ∧ x < a + (rest.length + 1)) := by omega
        rw [if_neg hin, if_neg hout]
        split
        · exact Memory.read_write_ne m a x b hxa
        · rfl

/-! ### The contracts of MemRead and MemWrite -/

theorem inRange_iff (addr : Int) : inRange addr = true ↔ 0 ≤ addr ∧ addr < 256 := by
  unfold inRange
  rw [Bool.and_eq_true, decide_eq_true_iff, decide_eq_true_iff]
  exact Iff.rfl

theorem inRange_byte (v : Byte) : inRange ((v.toNat : Int)) = true := by
  have := v.isLt
  rw [inRange_iff]; omega

theorem memRead_inRange (s : State) {addr : Int} (h : inRange addr = true) :
    memRead s addr = .ok (Memory.read s.mem addr.toNat) := by simp [memRead, h]

theorem memRead_outOfRange (s : State) {addr : Int} (h : inRange addr = false) :
    memRead s addr = .error (outOfRange addr) := by simp [memRead, h]

theorem memWrite_inRange (s : State) {addr : Int} (v : Byte) (h : inRange addr = true) :
    memWrite s addr v = .ok { s with mem := Memory.write s.mem addr.toNat v } := by simp [memWrite, h]

theorem memWrite_outOfRange (s : State) {addr : Int} (v : Byte) (h : inRange addr = false) :
    memWrite s addr v = .error (outOfRange addr) := by simp [memWrite, h]

/-- A stack store never raises (R35). -/
theorem storeAtSp_eq (s : State) (v : Byte) :
    storeAtSp s v = .ok { s with mem := Memory.write s.mem (readReg s sp).toNat v } := by
  simp only [storeAtSp, spAddress]
  rw [memWrite_inRange s v (inRange_byte _)]
  rfl

/-- A stack load never raises (R35). -/
theorem loadAtSp_eq (s : State) : loadAtSp s = .ok (Memory.read s.mem (readReg s sp).toNat) := by
  simp only [loadAtSp, spAddress]
  rw [memRead_inRange s (inRange_byte _)]
  rfl

end Sys2Proof.Machine
end

