-- ==== Sys2Proof/Laws/Operands.lean ====
section
/-!
SUPPORT. What the operand operations can answer: the values when the bytes lie in memory and select
registers, and otherwise which trap, in the order of spec/60_exceptions.md R168.
-/

namespace Sys2Proof.Machine

@[simp] theorem ok_bind {α β : Type} (a : α) (f : α → Except Trap β) :
    ((Except.ok a : Except Trap α) >>= f) = f a := rfl

@[simp] theorem error_bind {α β : Type} (t : Trap) (f : α → Except Trap β) :
    ((Except.error t : Except Trap α) >>= f) = .error t := rfl

@[simp] theorem conclude_ok (s t : State) : conclude s (.ok t) = .next t := rfl

@[simp] theorem conclude_error (s : State) (t : Trap) : conclude s (.error t) = .next (takeFault s t) := rfl

/-- `conclude` always answers a next state: the instruction's, or the fault taken in `s`. -/
theorem conclude_cases (s : State) (e : Except Trap State) :
    (∃ t, e = .ok t ∧ conclude s e = .next t) ∨
    (∃ tr, e = .error tr ∧ conclude s e = .next (takeFault s tr)) := by
  cases e with
  | ok t => exact .inl ⟨t, rfl, rfl⟩
  | error tr => exact .inr ⟨tr, rfl, rfl⟩

theorem zext9_toNat (v : Byte) : (zext9 v).toNat = v.toNat := by
  have := v.isLt
  simp only [zext9, BitVec.toNat_setWidth]
  omega

/-! ### Registers by operand byte -/

theorem regSelected_index (r : Reg) : regSelected r.index = some r := by cases r <;> rfl

theorem index_of_regSelected {b : Byte} {r : Reg} (h : regSelected b = some r) : r.index = b := by
  revert b; cases r <;> decide

theorem regSelected_none {b : Byte} : regSelected b = none ↔ 8 ≤ b.toNat := by
  revert b; decide

theorem checkReg_index (r : Reg) : checkReg r.index = .ok r := by simp [checkReg, regSelected_index]

theorem checkReg_invalid {b : Byte} (h : 8 ≤ b.toNat) : checkReg b = .error (invalidRegister b) := by
  simp [checkReg, regSelected_none.mpr h]

/-- The two answers of the register check. -/
theorem checkReg_cases (b : Byte) :
    (∃ r : Reg, b = r.index ∧ checkReg b = .ok r) ∨
    (8 ≤ b.toNat ∧ checkReg b = .error (invalidRegister b)) := by
  cases h : regSelected b with
  | some r =>
    have hb := index_of_regSelected h
    exact .inl ⟨r, hb.symm, by simp [checkReg, h]⟩
  | none => exact .inr ⟨regSelected_none.mp h, checkReg_invalid (regSelected_none.mp h)⟩

/-! ### Operand reads -/

theorem operandAddress_inRange (s : State) (k : Nat) :
    inRange (operandAddress s k) = true ↔ s.pc.toNat + k < 256 := by
  rw [inRange_iff]; simp only [operandAddress]; omega

theorem readOperand_ok {s : State} {k : Nat} (v : Byte) (h : s.pc.toNat + k < 256) :
    readOperand s k v = .ok v := by
  simp [readOperand, (operandAddress_inRange s k).mpr h]

theorem readOperand_outOfRange {s : State} {k : Nat} (v : Byte) (h : 256 ≤ s.pc.toNat + k) :
    readOperand s k v = .error (outOfRange (operandAddress s k)) := by
  have : ¬ inRange (operandAddress s k) = true := by rw [operandAddress_inRange]; omega
  simp [readOperand, this]

/-- The answers of format R's operand, in the order tested. -/
theorem oneReg_cases (s : State) (a : Byte) :
    (s.pc.toNat + 1 < 256 ∧ ∃ r : Reg, a = r.index ∧ oneReg s a = .ok r) ∨
    (256 ≤ s.pc.toNat + 1 ∧ oneReg s a = .error (outOfRange (operandAddress s 1))) ∨
    (s.pc.toNat + 1 < 256 ∧ 8 ≤ a.toNat ∧ oneReg s a = .error (invalidRegister a)) := by
  simp only [oneReg]
  by_cases h : s.pc.toNat + 1 < 256
  · rw [readOperand_ok a h, ok_bind]
    rcases checkReg_cases a with ⟨r, hr, e⟩ | ⟨ha, e⟩
    · exact .inl ⟨h, r, hr, e⟩
    · exact .inr (.inr ⟨h, ha, e⟩)
  · rw [readOperand_outOfRange a (by omega), error_bind]
    exact .inr (.inl ⟨by omega, rfl⟩)

/-- The answers of format RI's operands, in the order tested. -/
theorem regAndImm_cases (s : State) (a imm : Byte) :
    (s.pc.toNat + 2 < 256 ∧ ∃ r : Reg, a = r.index ∧ regAndImm s a imm = .ok (r, imm)) ∨
    (256 ≤ s.pc.toNat + 1 ∧ regAndImm s a imm = .error (outOfRange (operandAddress s 1))) ∨
    (s.pc.toNat + 1 < 256 ∧ 256 ≤ s.pc.toNat + 2
      ∧ regAndImm s a imm = .error (outOfRange (operandAddress s 2))) ∨
    (s.pc.toNat + 2 < 256 ∧ 8 ≤ a.toNat ∧ regAndImm s a imm = .error (invalidRegister a)) := by
  simp only [regAndImm]
  by_cases h1 : s.pc.toNat + 1 < 256
  · rw [readOperand_ok a h1, ok_bind]
    by_cases h2 : s.pc.toNat + 2 < 256
    · rw [readOperand_ok imm h2, ok_bind]
      rcases checkReg_cases a with ⟨r, hr, e⟩ | ⟨ha, e⟩
      · exact .inl ⟨h2, r, hr, by rw [e]; rfl⟩
      · exact .inr (.inr (.inr ⟨h2, ha, by rw [e]; rfl⟩))
    · rw [readOperand_outOfRange imm (by omega), error_bind]
      exact .inr (.inr (.inl ⟨h1, by omega, rfl⟩))
  · rw [readOperand_outOfRange a (by omega), error_bind]
    exact .inr (.inl ⟨by omega, rfl⟩)

/-- The answers of format RR's operands, in the order tested. -/
theorem twoRegs_cases (s : State) (a b : Byte) :
    (s.pc.toNat + 2 < 256 ∧ ∃ ra rb : Reg, a = ra.index ∧ b = rb.index ∧ twoRegs s a b = .ok (ra, rb)) ∨
    (256 ≤ s.pc.toNat + 1 ∧ twoRegs s a b = .error (outOfRange (operandAddress s 1))) ∨
    (s.pc.toNat + 1 < 256 ∧ 256 ≤ s.pc.toNat + 2
      ∧ twoRegs s a b = .error (outOfRange (operandAddress s 2))) ∨
    (s.pc.toNat + 2 < 256 ∧ 8 ≤ a.toNat ∧ twoRegs s a b = .error (invalidRegister a)) ∨
    (s.pc.toNat + 2 < 256 ∧ a.toNat ≤ 7 ∧ 8 ≤ b.toNat ∧ twoRegs s a b = .error (invalidRegister b)) := by
  simp only [twoRegs]
  by_cases h1 : s.pc.toNat + 1 < 256
  · rw [readOperand_ok a h1, ok_bind]
    by_cases h2 : s.pc.toNat + 2 < 256
    · rw [readOperand_ok b h2, ok_bind]
      rcases checkReg_cases a with ⟨ra, hra, ea⟩ | ⟨ha, ea⟩
      · rw [ea, ok_bind]
        rcases checkReg_cases b with ⟨rb, hrb, eb⟩ | ⟨hb, eb⟩
        · exact .inl ⟨h2, ra, rb, hra, hrb, by rw [eb]; rfl⟩
        · exact .inr (.inr (.inr (.inr ⟨h2, by subst hra; cases ra <;> decide, hb, by rw [eb]; rfl⟩)))
      · exact .inr (.inr (.inr (.inl ⟨h2, ha, by rw [ea]; rfl⟩)))
    · rw [readOperand_outOfRange b (by omega), error_bind]
      exact .inr (.inr (.inl ⟨h1, by omega, rfl⟩))
  · rw [readOperand_outOfRange a (by omega), error_bind]
    exact .inr (.inl ⟨by omega, rfl⟩)

theorem oneReg_ok {s : State} (r : Reg) (h : s.pc.toNat + 1 < 256) : oneReg s r.index = .ok r := by
  simp [oneReg, readOperand_ok _ h, checkReg_index]

theorem regAndImm_ok {s : State} (r : Reg) (imm : Byte) (h : s.pc.toNat + 2 < 256) :
    regAndImm s r.index imm = .ok (r, imm) := by
  simp [regAndImm, readOperand_ok _ h, readOperand_ok _ (Nat.lt_trans (Nat.lt_succ_self _) h : s.pc.toNat + 1 < 256),
    checkReg_index]

theorem twoRegs_ok {s : State} (ra rb : Reg) (h : s.pc.toNat + 2 < 256) :
    twoRegs s ra.index rb.index = .ok (ra, rb) := by
  simp [twoRegs, readOperand_ok _ h, readOperand_ok _ (Nat.lt_trans (Nat.lt_succ_self _) h : s.pc.toNat + 1 < 256),
    checkReg_index]

/-- The answers of CALL's return-address check. -/
theorem returnAddress_cases (s : State) :
    (s.pc.toNat + 2 < 256 ∧ returnAddress s = .ok (BitVec.ofNat 8 (s.pc.toNat + 2))) ∨
    (256 ≤ s.pc.toNat + 2 ∧ returnAddress s = .error (outOfRange (operandAddress s 2))) := by
  simp only [returnAddress]
  by_cases h : s.pc.toNat + 2 < 256
  · exact .inl ⟨h, by simp [(operandAddress_inRange s 2).mpr h]⟩
  · have : ¬ inRange (operandAddress s 2) = true := by rw [operandAddress_inRange]; omega
    exact .inr ⟨by omega, by simp [this]⟩

end Sys2Proof.Machine
end

