-- ==== Sys2Proof/Laws/Alu.lean ====
section
/-!
SUPPORT. What the ALU answers for its eleven operations and what the engine makes of it: the shared
lemmas of the ALU instructions.
-/

namespace Sys2Proof.Machine

theorem aluOpOf_select (op : AluOp) : aluOpOf op.select = some op := by cases op <;> decide

/-- The engine's select always names its operation. -/
theorem aluApply_select (op : AluOp) (va vb : Byte) : aluApply op.select va vb = aluCompute op va vb := by
  simp [aluApply, aluOpOf_select]

/-- The operations of the ALU that write register a whatever their operands are. -/
def AluOp.registerResult : AluOp → Byte → Byte → Option Byte
  | .add, va, vb => some (va + vb)
  | .sub, va, vb => some (va - vb)
  | .mul, va, vb => some (va * vb)
  | .div, va, vb => if vb = 0#8 then none else some (va / vb)
  | .mod, va, vb => if vb = 0#8 then none else some (va % vb)
  | .cmp, _, _ => none
  | .and, va, vb => some (va &&& vb)
  | .or, va, vb => some (va ||| vb)
  | .xor, va, vb => some (va ^^^ vb)
  | .shl, va, vb => some (shiftLeft va vb)
  | .shr, va, vb => some (shiftRight va vb)

/-- The three answers of the ALU: a register result, the flags of CMP, or a zero divisor of DIV and MOD. -/
theorem aluCompute_cases (op : AluOp) (va vb : Byte) :
    (∃ v, op.registerResult va vb = some v ∧ op ≠ .cmp ∧ aluCompute op va vb = .register v) ∨
    (op = .cmp ∧ aluCompute op va vb = .compare (compareFlags va vb)) ∨
    ((op = .div ∨ op = .mod) ∧ vb = 0#8 ∧ aluCompute op va vb = .divisionByZero) := by
  cases op
  case cmp => exact .inr (.inl ⟨rfl, rfl⟩)
  case div =>
    by_cases h : vb = 0#8
    · exact .inr (.inr ⟨.inl rfl, h, by simp [aluCompute, h]⟩)
    · exact .inl ⟨va / vb, by simp [AluOp.registerResult, h], by simp, by simp [aluCompute, h]⟩
  case mod =>
    by_cases h : vb = 0#8
    · exact .inr (.inr ⟨.inr rfl, h, by simp [aluCompute, h]⟩)
    · exact .inl ⟨va % vb, by simp [AluOp.registerResult, h], by simp, by simp [aluCompute, h]⟩
  all_goals exact .inl ⟨_, rfl, by simp, rfl⟩

@[simp] theorem AluOut.writeReg_register (v : Byte) : AluOut.writeReg (.register v) = true := rfl
@[simp] theorem AluOut.writeReg_compare (lge : BitVec 3) : AluOut.writeReg (.compare lge) = false := rfl
@[simp] theorem AluOut.writeReg_divisionByZero : AluOut.writeReg .divisionByZero = false := rfl
@[simp] theorem AluOut.writeReg_unsupportedSelect : AluOut.writeReg .unsupportedSelect = false := rfl

@[simp] theorem AluOut.writeFlags_register (v : Byte) : AluOut.writeFlags (.register v) = false := rfl
@[simp] theorem AluOut.writeFlags_compare (lge : BitVec 3) : AluOut.writeFlags (.compare lge) = true := rfl
@[simp] theorem AluOut.writeFlags_divisionByZero : AluOut.writeFlags .divisionByZero = false := rfl
@[simp] theorem AluOut.writeFlags_unsupportedSelect : AluOut.writeFlags .unsupportedSelect = false := rfl

@[simp] theorem AluOut.divZero_register (v : Byte) : AluOut.divZero (.register v) = false := rfl
@[simp] theorem AluOut.divZero_compare (lge : BitVec 3) : AluOut.divZero (.compare lge) = false := rfl
@[simp] theorem AluOut.divZero_divisionByZero : AluOut.divZero .divisionByZero = true := rfl
@[simp] theorem AluOut.divZero_unsupportedSelect : AluOut.divZero .unsupportedSelect = false := rfl

@[simp] theorem AluOut.unsupported_register (v : Byte) : AluOut.unsupported (.register v) = false := rfl
@[simp] theorem AluOut.unsupported_compare (lge : BitVec 3) : AluOut.unsupported (.compare lge) = false := rfl
@[simp] theorem AluOut.unsupported_divisionByZero : AluOut.unsupported .divisionByZero = false := rfl
@[simp] theorem AluOut.unsupported_unsupportedSelect : AluOut.unsupported .unsupportedSelect = true := rfl

@[simp] theorem aluCommit_register (s : State) (sel : Byte) (ra rb : Reg) (v : Byte) :
    aluCommit s sel ra rb (.register v) = .ok (writeReg s ra v) := rfl

@[simp] theorem aluCommit_compare (s : State) (sel : Byte) (ra rb : Reg) (lge : BitVec 3) :
    aluCommit s sel ra rb (.compare lge) = .ok (setFlags s (flagsByte lge)) := rfl

@[simp] theorem aluCommit_divisionByZero (s : State) (sel : Byte) (ra rb : Reg) :
    aluCommit s sel ra rb .divisionByZero = .error (divisionByZero rb.index) := rfl

/-- An ALU instruction with a register result, on operands that lie in memory and select registers. -/
theorem aluInstr_register {op : AluOp} {s : State} {ra rb : Reg} {v : Byte} (h : s.pc.toNat + 2 < 256)
    (hv : aluCompute op (readReg s ra) (readReg s rb) = .register v) :
    aluInstr op ra.index rb.index s = .next (advance (writeReg s ra v) 3) := by
  simp only [aluInstr, twoRegs_ok ra rb h, ok_bind, aluApply_select, hv, aluCommit_register]
  rfl

/-- CMP on operands that lie in memory and select registers. -/
theorem aluInstr_compare {s : State} {ra rb : Reg} (h : s.pc.toNat + 2 < 256) :
    aluInstr .cmp ra.index rb.index s
      = .next (advance (setFlags s (flagsByte (compareFlags (readReg s ra) (readReg s rb)))) 3) := by
  simp only [aluInstr, twoRegs_ok ra rb h, ok_bind, aluApply_select, aluCompute, aluCommit_compare]
  rfl

/-- Everything an ALU instruction can do (R120, R166). -/
theorem aluInstr_cases (op : AluOp) (a b : Byte) (s : State) :
    (∃ (ra rb : Reg) (v : Byte), s.pc.toNat + 2 < 256 ∧ a = ra.index ∧ b = rb.index ∧ op ≠ .cmp
      ∧ op.registerResult (readReg s ra) (readReg s rb) = some v
      ∧ aluInstr op a b s = .next (advance (writeReg s ra v) 3)) ∨
    (∃ ra rb : Reg, s.pc.toNat + 2 < 256 ∧ a = ra.index ∧ b = rb.index ∧ op = .cmp
      ∧ aluInstr op a b s
        = .next (advance (setFlags s (flagsByte (compareFlags (readReg s ra) (readReg s rb)))) 3)) ∨
    (∃ rb : Reg, (op = .div ∨ op = .mod) ∧ b = rb.index ∧ readReg s rb = 0#8
      ∧ aluInstr op a b s = .next (takeFault s (divisionByZero b))) ∨
    (256 ≤ s.pc.toNat + 1 ∧ aluInstr op a b s = .next (takeFault s (outOfRange (operandAddress s 1)))) ∨
    (s.pc.toNat + 1 < 256 ∧ 256 ≤ s.pc.toNat + 2
      ∧ aluInstr op a b s = .next (takeFault s (outOfRange (operandAddress s 2)))) ∨
    (8 ≤ a.toNat ∧ aluInstr op a b s = .next (takeFault s (invalidRegister a))) ∨
    (8 ≤ b.toNat ∧ aluInstr op a b s = .next (takeFault s (invalidRegister b))) := by
  rcases twoRegs_cases s a b with ⟨h, ra, rb, rfl, rfl, e⟩ | ⟨h, e⟩ | ⟨h1, h2, e⟩ | ⟨_, ha, e⟩ | ⟨_, _, hb, e⟩
  · rcases aluCompute_cases op (readReg s ra) (readReg s rb) with ⟨v, hr, hc, hv⟩ | ⟨rfl, _⟩ | ⟨hd, hz, hv⟩
    · exact .inl ⟨ra, rb, v, h, rfl, rfl, hc, hr, aluInstr_register h hv⟩
    · exact .inr (.inl ⟨ra, rb, h, rfl, rfl, rfl, aluInstr_compare h⟩)
    · refine .inr (.inr (.inl ⟨rb, hd, rfl, hz, ?_⟩))
      simp only [aluInstr, e, ok_bind, aluApply_select, hv, aluCommit_divisionByZero, error_bind, conclude_error]
  · exact .inr (.inr (.inr (.inl ⟨h, by simp [aluInstr, e]⟩)))
  · exact .inr (.inr (.inr (.inr (.inl ⟨h1, h2, by simp [aluInstr, e]⟩))))
  · exact .inr (.inr (.inr (.inr (.inr (.inl ⟨ha, by simp [aluInstr, e]⟩)))))
  · exact .inr (.inr (.inr (.inr (.inr (.inr ⟨hb, by simp [aluInstr, e]⟩)))))

end Sys2Proof.Machine
end

