-- ==== Sys2Proof/Laws/Decode.lean ====
section
/-!
SUPPORT. The laws of the opcode table and of taking operands, which the decoder's round trips are
assembled from.
-/

namespace Sys2Proof

theorem mnemonicOf_opcode (m : Mnemonic) : mnemonicOf m.opcode = some m := by
  cases m <;> decide

theorem opcode_of_mnemonicOf {b : Byte} {m : Mnemonic} (h : mnemonicOf b = some m) : m.opcode = b := by
  have := List.find?_some h
  simpa using this

theorem opcode_injective {m n : Mnemonic} (h : m.opcode = n.opcode) : m = n := by
  have := mnemonicOf_opcode m
  rw [h, mnemonicOf_opcode] at this
  exact (Option.some.inj this).symm

/-- The operand bytes of an instruction make it again. -/
theorem takeOperands_operandBytes (i : Instr) (rest : List Byte) :
    takeOperands i.mnemonic.shape (i.operandBytes ++ rest) = some (i, rest) := by
  cases i <;> rfl

/-- No instruction is longer than three bytes (R50). -/
theorem length_le_three (i : Instr) : i.length ≤ 3 := by
  show 1 + opcodeNops i.mnemonic.opcode ≤ 3
  cases i.mnemonic <;> decide

/-- What the decoder does with a list that has an opcode byte. -/
theorem decode_cons (op : Byte) (rest : List Byte) :
    (mnemonicOf op = none ∧ decode (op :: rest) = .error (.unknownOpcode op)) ∨
    (∃ m, mnemonicOf op = some m ∧ takeOperands m.shape rest = none
      ∧ decode (op :: rest) = .error (.truncated op)) ∨
    (∃ m r, mnemonicOf op = some m ∧ takeOperands m.shape rest = some r
      ∧ decode (op :: rest) = .ok r) := by
  simp only [decode]
  cases hm : mnemonicOf op with
  | none => exact .inl ⟨rfl, rfl⟩
  | some m =>
    cases ht : takeOperands m.shape rest with
    | none => exact .inr (.inl ⟨m, rfl, ht, by simp only [ht]⟩)
    | some r => exact .inr (.inr ⟨m, r, rfl, ht, by simp only [ht]⟩)

/-- Two bytes after the opcode are enough for every format (R52). -/
theorem takeOperands_two_bytes (sh : Shape) (b₁ b₂ : Byte) : ∃ r, takeOperands sh [b₁, b₂] = some r := by
  cases sh <;> exact ⟨_, rfl⟩

/-- The engine's three bytes never end too early: they are an instruction or an unknown opcode. -/
theorem decode_three (b₀ b₁ b₂ : Byte) :
    (mnemonicOf b₀ = none ∧ decode [b₀, b₁, b₂] = .error (.unknownOpcode b₀)) ∨
    (∃ m r, mnemonicOf b₀ = some m ∧ takeOperands m.shape [b₁, b₂] = some r
      ∧ decode [b₀, b₁, b₂] = .ok r) := by
  rcases decode_cons b₀ [b₁, b₂] with h | ⟨m, _, ht, _⟩ | h
  · exact .inl h
  · obtain ⟨r, hr⟩ := takeOperands_two_bytes m.shape b₁ b₂
    simp [hr] at ht
  · exact .inr h

end Sys2Proof
end

