-- ==== Sys2Proof/Laws/Exec.lean ====
section
/-!
SUPPORT. One inversion lemma per meaning outside the ALU: everything the instruction can do (the ALU
instructions: aluInstr_cases of Laws/Alu.lean).
-/

namespace Sys2Proof.Machine

theorem execHlt_eq (s : State) : execHlt s = .next (halt (advance s 1) .halted) := rfl

/-- Everything LDI can do (R91, R166). -/
theorem execLdi_cases (a imm : Byte) (s : State) :
    (∃ r : Reg, s.pc.toNat + 2 < 256 ∧ a = r.index ∧ execLdi a imm s = .next (advance (writeReg s r imm) 3)) ∨
    (256 ≤ s.pc.toNat + 1 ∧ execLdi a imm s = .next (takeFault s (outOfRange (operandAddress s 1)))) ∨
    (s.pc.toNat + 1 < 256 ∧ 256 ≤ s.pc.toNat + 2
      ∧ execLdi a imm s = .next (takeFault s (outOfRange (operandAddress s 2)))) ∨
    (8 ≤ a.toNat ∧ execLdi a imm s = .next (takeFault s (invalidRegister a))) := by
  rcases regAndImm_cases s a imm with ⟨h, r, hr, e⟩ | ⟨h, e⟩ | ⟨h1, h2, e⟩ | ⟨_, ha, e⟩
  · exact .inl ⟨r, h, hr, by simp only [execLdi, e]; rfl⟩
  · exact .inr (.inl ⟨h, by simp only [execLdi, e]; rfl⟩)
  · exact .inr (.inr (.inl ⟨h1, h2, by simp only [execLdi, e]; rfl⟩))
  · exact .inr (.inr (.inr ⟨ha, by simp only [execLdi, e]; rfl⟩))

/-- The faults of an instruction with one register operand (R166). -/
def OneRegFault (s : State) (a : Byte) (o : Result) : Prop :=
  (256 ≤ s.pc.toNat + 1 ∧ o = .next (takeFault s (outOfRange (operandAddress s 1)))) ∨
  (8 ≤ a.toNat ∧ o = .next (takeFault s (invalidRegister a)))

/-- An instruction that reads one register operand first: it goes on with the register, or faults. -/
theorem oneReg_then (s : State) (a : Byte) (k : Reg → Except Trap State) :
    (∃ r : Reg, s.pc.toNat + 1 < 256 ∧ a = r.index ∧ conclude s (oneReg s a >>= k) = conclude s (k r)) ∨
    OneRegFault s a (conclude s (oneReg s a >>= k)) := by
  rcases oneReg_cases s a with ⟨h, r, hr, e⟩ | ⟨h, e⟩ | ⟨_, ha, e⟩
  · exact .inl ⟨r, h, hr, by rw [e, ok_bind]⟩
  · exact .inr (.inl ⟨h, by rw [e, error_bind, conclude_error]⟩)
  · exact .inr (.inr ⟨ha, by rw [e, error_bind, conclude_error]⟩)

theorem conclude_pure (s t : State) : conclude s (pure t) = .next t := rfl

/-- Everything PRN can do (R92, R166). -/
theorem execPrn_cases (a : Byte) (s : State) :
    (∃ r : Reg, s.pc.toNat + 1 < 256 ∧ a = r.index ∧ execPrn a s = .next (advance (emit s (readReg s r)) 2)) ∨
    OneRegFault s a (execPrn a s) :=
  oneReg_then s a _

/-- The state after a byte was pushed: R7 decremented, then the byte stored at it (R104). -/
def pushed (s : State) (v : Byte) : State :=
  { decSp s with mem := Memory.write s.mem (readReg s sp - 1#8).toNat v }

@[simp] theorem readReg_sp_decSp (s : State) : readReg (decSp s) sp = readReg s sp - 1#8 := by
  simp [readReg_decSp]

@[simp] theorem readReg_sp_incSp (s : State) : readReg (incSp s) sp = readReg s sp + 1#8 := by
  simp [readReg_incSp]

theorem storeAtSp_decSp (s : State) (v : Byte) : storeAtSp (decSp s) v = .ok (pushed s v) := by
  rw [storeAtSp_eq, readReg_sp_decSp]; rfl

@[simp] theorem pushed_mem (s : State) (v : Byte) :
    (pushed s v).mem = Memory.write s.mem (readReg s sp - 1#8).toNat v := rfl
@[simp] theorem pushed_pc (s : State) (v : Byte) : (pushed s v).pc = s.pc := rfl
@[simp] theorem pushed_fl (s : State) (v : Byte) : (pushed s v).fl = s.fl := rfl
@[simp] theorem pushed_rs (s : State) (v : Byte) : (pushed s v).rs = s.rs := rfl
@[simp] theorem pushed_cause (s : State) (v : Byte) : (pushed s v).cause = s.cause := rfl
@[simp] theorem pushed_info (s : State) (v : Byte) : (pushed s v).info = s.info := rfl
@[simp] theorem pushed_out (s : State) (v : Byte) : (pushed s v).out = s.out := rfl
@[simp] theorem readReg_pushed (s : State) (v : Byte) (q : Reg) :
    readReg (pushed s v) q = readReg (decSp s) q := rfl

/-- Everything PUSH can do (R100, R166). -/
theorem execPush_cases (a : Byte) (s : State) :
    (∃ r : Reg, s.pc.toNat + 1 < 256 ∧ a = r.index
      ∧ execPush a s = .next (advance (pushed s (readReg (decSp s) r)) 2)) ∨
    OneRegFault s a (execPush a s) := by
  rcases oneReg_then s a (fun r => do
    let s₂ ← storeAtSp (decSp s) (readReg (decSp s) r)
    return advance s₂ 2) with ⟨r, h, hr, e⟩ | hf
  · refine .inl ⟨r, h, hr, ?_⟩
    simp only [execPush]
    exact e.trans (by rw [storeAtSp_decSp, ok_bind, conclude_pure])
  · exact .inr (by simp only [execPush]; exact hf)

/-- Everything POP can do (R101, R166). -/
theorem execPop_cases (a : Byte) (s : State) :
    (∃ r : Reg, s.pc.toNat + 1 < 256 ∧ a = r.index
      ∧ execPop a s
        = .next (advance (incSp (writeReg s r (Memory.read s.mem (readReg s sp).toNat))) 2)) ∨
    OneRegFault s a (execPop a s) := by
  rcases oneReg_then s a (fun r => do
    let v ← loadAtSp s
    return advance (incSp (writeReg s r v)) 2) with ⟨r, h, hr, e⟩ | hf
  · refine .inl ⟨r, h, hr, ?_⟩
    simp only [execPop]
    exact e.trans (by rw [loadAtSp_eq, ok_bind, conclude_pure])
  · exact .inr (by simp only [execPop]; exact hf)

/-- Everything CALL can do (R110, R166). -/
theorem execCall_cases (a : Byte) (s : State) :
    (∃ r : Reg, s.pc.toNat + 2 < 256 ∧ a = r.index
      ∧ execCall a s
        = .next (jumpTo (pushed s (BitVec.ofNat 8 (s.pc.toNat + 2))) (readReg (decSp s) r))) ∨
    (s.pc.toNat + 1 < 256 ∧ 256 ≤ s.pc.toNat + 2
      ∧ execCall a s = .next (takeFault s (outOfRange (operandAddress s 2)))) ∨
    OneRegFault s a (execCall a s) := by
  rcases oneReg_then s a (fun r => do
    let ret ← returnAddress s
    let s₂ ← storeAtSp (decSp s) ret
    return jumpTo s₂ (readReg s₂ r)) with ⟨r, h, hr, e⟩ | hf
  · rcases returnAddress_cases s with ⟨h2, er⟩ | ⟨h2, er⟩
    · refine .inl ⟨r, h2, hr, ?_⟩
      simp only [execCall]
      exact e.trans (by rw [er, ok_bind, storeAtSp_decSp, ok_bind, conclude_pure, readReg_pushed])
    · refine .inr (.inl ⟨h, h2, ?_⟩)
      simp only [execCall]
      exact e.trans (by rw [er, error_bind, conclude_error])
  · exact .inr (.inr (by simp only [execCall]; exact hf))

/-- RET always completes (R111). -/
theorem execRet_eq (s : State) :
    execRet s = .next (incSp (jumpTo s (Memory.read s.mem (readReg s sp).toNat))) := by
  simp only [execRet, loadAtSp_eq, ok_bind]; rfl

/-- Everything JMP, JEQ and JNE can do (R112 to R115, R166). -/
theorem branchOnReg_cases (op : BranchOp) (a : Byte) (s : State) :
    (∃ r : Reg, branchTaken op (flagE s.fl) = true ∧ s.pc.toNat + 1 < 256 ∧ a = r.index
      ∧ conclude s (branchOnReg op a s) = .next (jumpTo s (readReg s r))) ∨
    (branchTaken op (flagE s.fl) = false ∧ conclude s (branchOnReg op a s) = .next (advance s 2)) ∨
    (branchTaken op (flagE s.fl) = true ∧ OneRegFault s a (conclude s (branchOnReg op a s))) := by
  simp only [branchOnReg]
  cases hb : branchTaken op (flagE s.fl) with
  | false => exact .inr (.inl ⟨rfl, rfl⟩)
  | true =>
    rcases oneReg_then s a (fun r => .ok (jumpTo s (readReg s r))) with ⟨r, h, hr, e⟩ | hf
    · exact .inl ⟨r, rfl, h, hr, e⟩
    · exact .inr (.inr ⟨rfl, hf⟩)

end Sys2Proof.Machine
end

