-- ==== Sys2Proof/Laws/Effects.lean ====
section
/-!
SUPPORT. Everything an instruction can do, said once for all of them: the faults it can raise and the
states it can complete with (`exec_cases`), from which frames and invariants follow by cases.
-/

namespace Sys2Proof.Machine

theorem next_inj {a b : State} (h : (Host.Outcome.next a : Result) = .next b) : a = b := by cases h; rfl

theorem index_injective {r q : Reg} (h : r.index = q.index) : r = q := by
  have := regSelected_index r
  rw [h, regSelected_index] at this
  exact (Option.some.inj this).symm

theorem index_le_seven (r : Reg) : r.index.toNat ≤ 7 := by cases r <;> decide

/-! ### The meaning of an ALU instruction is the shared frame at its operation -/

theorem exec_add (a b : Byte) (s : State) : exec (.add a b) s = aluInstr .add a b s := rfl

theorem exec_sub (a b : Byte) (s : State) : exec (.sub a b) s = aluInstr .sub a b s := rfl

theorem exec_mul (a b : Byte) (s : State) : exec (.mul a b) s = aluInstr .mul a b s := rfl

theorem exec_div (a b : Byte) (s : State) : exec (.div a b) s = aluInstr .div a b s := rfl

theorem exec_mod (a b : Byte) (s : State) : exec (.mod a b) s = aluInstr .mod a b s := rfl

theorem exec_cmp (a b : Byte) (s : State) : exec (.cmp a b) s = aluInstr .cmp a b s := rfl

theorem exec_and (a b : Byte) (s : State) : exec (.and a b) s = aluInstr .and a b s := rfl

theorem exec_or (a b : Byte) (s : State) : exec (.or a b) s = aluInstr .or a b s := rfl

theorem exec_xor (a b : Byte) (s : State) : exec (.xor a b) s = aluInstr .xor a b s := rfl

theorem exec_shl (a b : Byte) (s : State) : exec (.shl a b) s = aluInstr .shl a b s := rfl

theorem exec_shr (a b : Byte) (s : State) : exec (.shr a b) s = aluInstr .shr a b s := rfl

/-- An instruction is one of the eleven over the ALU, or one of the ten others. -/
theorem exec_alu_form (i : Instr) (s : State) :
   (∃ op a b, exec i s = aluInstr op a b s ∧ i.mnemonic = op.mnemonic ∧ i.operandBytes = [a, b]) ∨
   i.mnemonic ∈ [.hlt, .ldi, .prn, .push, .pop, .call, .ret, .jmp, .jeq, .jne] := by
  cases i
  case add a b => exact .inl ⟨.add, a, b, rfl, rfl, rfl⟩
  case sub a b => exact .inl ⟨.sub, a, b, rfl, rfl, rfl⟩
  case mul a b => exact .inl ⟨.mul, a, b, rfl, rfl, rfl⟩
  case div a b => exact .inl ⟨.div, a, b, rfl, rfl, rfl⟩
  case mod a b => exact .inl ⟨.mod, a, b, rfl, rfl, rfl⟩
  case cmp a b => exact .inl ⟨.cmp, a, b, rfl, rfl, rfl⟩
  case and a b => exact .inl ⟨.and, a, b, rfl, rfl, rfl⟩
  case or a b => exact .inl ⟨.or, a, b, rfl, rfl, rfl⟩
  case xor a b => exact .inl ⟨.xor, a, b, rfl, rfl, rfl⟩
  case shl a b => exact .inl ⟨.shl, a, b, rfl, rfl, rfl⟩
  case shr a b => exact .inl ⟨.shr, a, b, rfl, rfl, rfl⟩
  all_goals exact .inr (by simp [Instr.mnemonic])

/-- Every fault an instruction can raise (R166): an operand read or CALL's return address past memory, a
register operand byte above 7, a zero divisor. -/
inductive RaisesFault (s t : State) : Prop
  | outOfRange (k : Nat) (hk : k = 1 ∨ k = 2) (h : 256 ≤ s.pc.toNat + k)
      (h1 : k = 2 → s.pc.toNat + 1 < 256) (e : t = takeFault s (outOfRange (operandAddress s k)))
  | invalidRegister (b : Byte) (h : 8 ≤ b.toNat) (e : t = takeFault s (invalidRegister b))
  | divisionByZero (r : Reg) (e : t = takeFault s (divisionByZero r.index))

theorem raisesFault_of_oneReg {s t : State} {a : Byte} {o : Result} (h : OneRegFault s a o) (e : o = .next t) : RaisesFault s t := by
  rcases h with ⟨h, e'⟩ | ⟨h, e'⟩
  · rw [e'] at e; exact .outOfRange 1 (.inl rfl) h (by simp) (next_inj e).symm
  · rw [e'] at e; exact .invalidRegister a h (next_inj e).symm

/-- What a fault leaves: the state as it was, with FAULT and some CAUSE and INFO (R167). -/
theorem RaisesFault.eq_takeFault {s t : State} (h : RaisesFault s t) :
    ∃ c info, c ≠ .none ∧ t = takeFault s ⟨c, info⟩ := by
  rcases h with ⟨k, _, _, _, e⟩ | ⟨b, _, e⟩ | ⟨r, e⟩
  · exact ⟨.outOfRange, _, by decide, e⟩
  · exact ⟨.invalidRegister, _, by decide, e⟩
  · exact ⟨.divisionByZero, _, by decide, e⟩

/-- Every way an instruction can complete, with the state it leaves (R90 to R135). -/
inductive Completes : Instr → State → State → Prop
  | hlt (s : State) : Completes .hlt s (halt (advance s 1) .halted)
  | ldi (s : State) (r : Reg) (imm : Byte) (h : s.pc.toNat + 2 < 256) :
      Completes (.ldi r.index imm) s (advance (writeReg s r imm) 3)
  | prn (s : State) (r : Reg) (h : s.pc.toNat + 1 < 256) :
      Completes (.prn r.index) s (advance (emit s (readReg s r)) 2)
  | push (s : State) (r : Reg) (h : s.pc.toNat + 1 < 256) :
      Completes (.push r.index) s (advance (pushed s (readReg (decSp s) r)) 2)
  | pop (s : State) (r : Reg) (h : s.pc.toNat + 1 < 256) :
      Completes (.pop r.index) s
        (advance (incSp (writeReg s r (Memory.read s.mem (readReg s sp).toNat))) 2)
  | call (s : State) (r : Reg) (h : s.pc.toNat + 2 < 256) :
      Completes (.call r.index) s
        (jumpTo (pushed s (BitVec.ofNat 8 (s.pc.toNat + 2))) (readReg (decSp s) r))
  | ret (s : State) : Completes .ret s (incSp (jumpTo s (Memory.read s.mem (readReg s sp).toNat)))
  | jmp (s : State) (r : Reg) (h : s.pc.toNat + 1 < 256) :
      Completes (.jmp r.index) s (jumpTo s (readReg s r))
  | jeqTaken (s : State) (r : Reg) (h : s.pc.toNat + 1 < 256) (he : flagE s.fl = true) :
      Completes (.jeq r.index) s (jumpTo s (readReg s r))
  | jeqUntaken (s : State) (a : Byte) (he : flagE s.fl = false) : Completes (.jeq a) s (advance s 2)
  | jneTaken (s : State) (r : Reg) (h : s.pc.toNat + 1 < 256) (he : flagE s.fl = false) :
      Completes (.jne r.index) s (jumpTo s (readReg s r))
  | jneUntaken (s : State) (a : Byte) (he : flagE s.fl = true) : Completes (.jne a) s (advance s 2)
  | alu (s : State) (i : Instr) (op : AluOp) (ra rb : Reg) (v : Byte) (h : s.pc.toNat + 2 < 256)
      (hm : i.mnemonic = op.mnemonic) (ho : i.operandBytes = [ra.index, rb.index]) (hop : op ≠ .cmp)
      (hv : op.registerResult (readReg s ra) (readReg s rb) = some v) :
      Completes i s (advance (writeReg s ra v) 3)
  | cmp (s : State) (ra rb : Reg) (h : s.pc.toNat + 2 < 256) :
      Completes (.cmp ra.index rb.index) s
        (advance (setFlags s (flagsByte (compareFlags (readReg s ra) (readReg s rb)))) 3)

/-- Everything an instruction can do: raise one of its faults, or complete. -/
theorem exec_cases {i : Instr} {s t : State} (h : exec i s = .next t) : RaisesFault s t ∨ Completes i s t := by
  rcases exec_alu_form i s with ⟨op, a, b, e, hm, ho⟩ | hno
  · rw [e] at h
    rcases aluInstr_cases op a b s with ⟨ra, rb, v, hp, rfl, rfl, hc, hv, e'⟩ |
      ⟨ra, rb, hp, rfl, rfl, rfl, e'⟩ | ⟨rb, _, rfl, _, e'⟩ | ⟨hp, e'⟩ | ⟨h1, h2, e'⟩ | ⟨hb, e'⟩ | ⟨hb, e'⟩
    · rw [e'] at h; rw [← next_inj h]; exact .inr (.alu s i op ra rb v hp hm ho hc hv)
    · rw [e'] at h; rw [← next_inj h]
      cases i <;> try (exfalso; simp [Instr.mnemonic, AluOp.mnemonic] at hm; done)
      simp only [Instr.operandBytes, List.cons.injEq, and_true] at ho
      obtain ⟨rfl, rfl⟩ := ho
      exact .inr (.cmp s ra rb hp)
    · rw [e'] at h; exact .inl (.divisionByZero rb (next_inj h).symm)
    · rw [e'] at h; exact .inl (.outOfRange 1 (.inl rfl) hp (by simp) (next_inj h).symm)
    · rw [e'] at h; exact .inl (.outOfRange 2 (.inr rfl) h2 (fun _ => h1) (next_inj h).symm)
    · rw [e'] at h; exact .inl (.invalidRegister _ hb (next_inj h).symm)
    · rw [e'] at h; exact .inl (.invalidRegister _ hb (next_inj h).symm)
  · cases i <;> try (exfalso; simp [Instr.mnemonic] at hno; done)
    case hlt => have := next_inj ((execHlt_eq s).symm.trans h); subst this; exact .inr (.hlt s)
    case ret => have := next_inj ((execRet_eq s).symm.trans h); subst this; exact .inr (.ret s)
    case ldi a imm =>
      change execLdi a imm s = _ at h
      rcases execLdi_cases a imm s with ⟨r, hp, rfl, e⟩ | ⟨hp, e⟩ | ⟨h1, h2, e⟩ | ⟨hb, e⟩ <;>
        rw [e] at h <;> have h := next_inj h
      · subst h; exact .inr (.ldi s r imm hp)
      · exact .inl (.outOfRange 1 (.inl rfl) hp (by simp) h.symm)
      · exact .inl (.outOfRange 2 (.inr rfl) h2 (fun _ => h1) h.symm)
      · exact .inl (.invalidRegister _ hb h.symm)
    case prn a =>
      change execPrn a s = _ at h
      rcases execPrn_cases a s with ⟨r, hp, rfl, e⟩ | hf
      · rw [e] at h; have h := next_inj h; subst h; exact .inr (.prn s r hp)
      · exact .inl (raisesFault_of_oneReg hf h)
    case push a =>
      change execPush a s = _ at h
      rcases execPush_cases a s with ⟨r, hp, rfl, e⟩ | hf
      · rw [e] at h; have h := next_inj h; subst h; exact .inr (.push s r hp)
      · exact .inl (raisesFault_of_oneReg hf h)
    case pop a =>
      change execPop a s = _ at h
      rcases execPop_cases a s with ⟨r, hp, rfl, e⟩ | hf
      · rw [e] at h; have h := next_inj h; subst h; exact .inr (.pop s r hp)
      · exact .inl (raisesFault_of_oneReg hf h)
    case call a =>
      change execCall a s = _ at h
      rcases execCall_cases a s with ⟨r, hp, rfl, e⟩ | ⟨h1, h2, e⟩ | hf
      · rw [e] at h; have h := next_inj h; subst h; exact .inr (.call s r hp)
      · rw [e] at h; exact .inl (.outOfRange 2 (.inr rfl) h2 (fun _ => h1) (next_inj h).symm)
      · exact .inl (raisesFault_of_oneReg hf h)
    case jmp a =>
      change conclude s (branchOnReg .jmp a s) = _ at h
      rcases branchOnReg_cases .jmp a s with ⟨r, _, hp, rfl, e⟩ | ⟨hb, _⟩ | ⟨_, hf⟩
      · rw [e] at h; have h := next_inj h; subst h; exact .inr (.jmp s r hp)
      · cases hb
      · exact .inl (raisesFault_of_oneReg hf h)
    case jeq a =>
      change conclude s (branchOnReg .jeq a s) = _ at h
      rcases branchOnReg_cases .jeq a s with ⟨r, hb, hp, rfl, e⟩ | ⟨hb, e⟩ | ⟨_, hf⟩
      · rw [e] at h; have h := next_inj h; subst h; exact .inr (.jeqTaken s r hp hb)
      · rw [e] at h; have h := next_inj h; subst h; exact .inr (.jeqUntaken s a hb)
      · exact .inl (raisesFault_of_oneReg hf h)
    case jne a =>
      change conclude s (branchOnReg .jne a s) = _ at h
      rcases branchOnReg_cases .jne a s with ⟨r, hb, hp, rfl, e⟩ | ⟨hb, e⟩ | ⟨_, hf⟩
      · rw [e] at h; have h := next_inj h; subst h; exact .inr (.jneTaken s r hp (by simpa [branchTaken] using hb))
      · rw [e] at h; have h := next_inj h; subst h; exact .inr (.jneUntaken s a (by simpa [branchTaken] using hb))
      · exact .inl (raisesFault_of_oneReg hf h)

/-! ### Completion on operands that lie in memory and select registers -/

theorem execLdi_ok (s : State) (r : Reg) (imm : Byte) (h : s.pc.toNat + 2 < 256) :
    execLdi r.index imm s = .next (advance (writeReg s r imm) 3) := by
  simp only [execLdi, regAndImm_ok r imm h, ok_bind]; rfl

theorem execPrn_ok (s : State) (r : Reg) (h : s.pc.toNat + 1 < 256) :
    execPrn r.index s = .next (advance (emit s (readReg s r)) 2) := by
  simp only [execPrn, oneReg_ok r h, ok_bind]; rfl

theorem execPush_ok (s : State) (r : Reg) (h : s.pc.toNat + 1 < 256) :
    execPush r.index s = .next (advance (pushed s (readReg (decSp s) r)) 2) := by
  simp only [execPush, oneReg_ok r h, ok_bind, storeAtSp_decSp]; rfl

theorem execPop_ok (s : State) (r : Reg) (h : s.pc.toNat + 1 < 256) :
    execPop r.index s
      = .next (advance (incSp (writeReg s r (Memory.read s.mem (readReg s sp).toNat))) 2) := by
  simp only [execPop, oneReg_ok r h, ok_bind, loadAtSp_eq]; rfl

theorem execCall_ok (s : State) (r : Reg) (h : s.pc.toNat + 2 < 256) :
    execCall r.index s
      = .next (jumpTo (pushed s (BitVec.ofNat 8 (s.pc.toNat + 2))) (readReg (decSp s) r)) := by
  have hr : returnAddress s = .ok (BitVec.ofNat 8 (s.pc.toNat + 2)) := by
    rcases returnAddress_cases s with ⟨_, e⟩ | ⟨h', _⟩
    · exact e
    · omega
  simp only [execCall, oneReg_ok r (by omega : s.pc.toNat + 1 < 256), hr, ok_bind, storeAtSp_decSp]; rfl

theorem branchOnReg_ok {op : BranchOp} {s : State} (r : Reg) (h : s.pc.toNat + 1 < 256)
    (hb : branchTaken op (flagE s.fl) = true) :
    branchOnReg op r.index s = .ok (jumpTo s (readReg s r)) := by
  simp only [branchOnReg, hb, oneReg_ok r h, ok_bind]; rfl

theorem branchOnReg_untaken {op : BranchOp} {s : State} (a : Byte)
    (hb : branchTaken op (flagE s.fl) = false) : branchOnReg op a s = .ok (advance s 2) := by
  simp [branchOnReg, hb]

end Sys2Proof.Machine
end

