-- ==== Sys2Proof/Laws/PerInstr.lean ====
section
/-!
SUPPORT. Statements made per instruction. EncodingShape: the encoding of an instruction has the length
that its opcode's NOPS field gives (spec/30_encoding.md R50).
-/

namespace Sys2Proof.Laws.EncodingShape

/-- The length of the encoding is 1 + opcode[7:6], at most three bytes (R50). -/
def Statement (i : Instr) : Prop := (encode i).length = i.length ∧ i.length ≤ 3

theorem hlt : Statement .hlt :=
  ⟨congrArg (1 + ·) (by decide : 0 = opcodeNops (Mnemonic.opcode .hlt)), length_le_three _⟩

theorem ldi (a imm : Byte) : Statement (.ldi a imm) :=
  ⟨congrArg (1 + ·) (by decide : 2 = opcodeNops (Mnemonic.opcode .ldi)), length_le_three _⟩

theorem prn (a : Byte) : Statement (.prn a) :=
  ⟨congrArg (1 + ·) (by decide : 1 = opcodeNops (Mnemonic.opcode .prn)), length_le_three _⟩

theorem push (a : Byte) : Statement (.push a) :=
  ⟨congrArg (1 + ·) (by decide : 1 = opcodeNops (Mnemonic.opcode .push)), length_le_three _⟩

theorem pop (a : Byte) : Statement (.pop a) :=
  ⟨congrArg (1 + ·) (by decide : 1 = opcodeNops (Mnemonic.opcode .pop)), length_le_three _⟩

theorem call (a : Byte) : Statement (.call a) :=
  ⟨congrArg (1 + ·) (by decide : 1 = opcodeNops (Mnemonic.opcode .call)), length_le_three _⟩

theorem ret : Statement .ret :=
  ⟨congrArg (1 + ·) (by decide : 0 = opcodeNops (Mnemonic.opcode .ret)), length_le_three _⟩

theorem jmp (a : Byte) : Statement (.jmp a) :=
  ⟨congrArg (1 + ·) (by decide : 1 = opcodeNops (Mnemonic.opcode .jmp)), length_le_three _⟩

theorem jeq (a : Byte) : Statement (.jeq a) :=
  ⟨congrArg (1 + ·) (by decide : 1 = opcodeNops (Mnemonic.opcode .jeq)), length_le_three _⟩

theorem jne (a : Byte) : Statement (.jne a) :=
  ⟨congrArg (1 + ·) (by decide : 1 = opcodeNops (Mnemonic.opcode .jne)), length_le_three _⟩

theorem add (a b : Byte) : Statement (.add a b) :=
  ⟨congrArg (1 + ·) (by decide : 2 = opcodeNops (Mnemonic.opcode .add)), length_le_three _⟩

theorem sub (a b : Byte) : Statement (.sub a b) :=
  ⟨congrArg (1 + ·) (by decide : 2 = opcodeNops (Mnemonic.opcode .sub)), length_le_three _⟩

theorem mul (a b : Byte) : Statement (.mul a b) :=
  ⟨congrArg (1 + ·) (by decide : 2 = opcodeNops (Mnemonic.opcode .mul)), length_le_three _⟩

theorem div (a b : Byte) : Statement (.div a b) :=
  ⟨congrArg (1 + ·) (by decide : 2 = opcodeNops (Mnemonic.opcode .div)), length_le_three _⟩

theorem mod (a b : Byte) : Statement (.mod a b) :=
  ⟨congrArg (1 + ·) (by decide : 2 = opcodeNops (Mnemonic.opcode .mod)), length_le_three _⟩

theorem cmp (a b : Byte) : Statement (.cmp a b) :=
  ⟨congrArg (1 + ·) (by decide : 2 = opcodeNops (Mnemonic.opcode .cmp)), length_le_three _⟩

theorem and (a b : Byte) : Statement (.and a b) :=
  ⟨congrArg (1 + ·) (by decide : 2 = opcodeNops (Mnemonic.opcode .and)), length_le_three _⟩

theorem or (a b : Byte) : Statement (.or a b) :=
  ⟨congrArg (1 + ·) (by decide : 2 = opcodeNops (Mnemonic.opcode .or)), length_le_three _⟩

theorem xor (a b : Byte) : Statement (.xor a b) :=
  ⟨congrArg (1 + ·) (by decide : 2 = opcodeNops (Mnemonic.opcode .xor)), length_le_three _⟩

theorem shl (a b : Byte) : Statement (.shl a b) :=
  ⟨congrArg (1 + ·) (by decide : 2 = opcodeNops (Mnemonic.opcode .shl)), length_le_three _⟩

theorem shr (a b : Byte) : Statement (.shr a b) :=
  ⟨congrArg (1 + ·) (by decide : 2 = opcodeNops (Mnemonic.opcode .shr)), length_le_three _⟩

end Sys2Proof.Laws.EncodingShape
end

