-- ==== Sys2Proof/Laws/Step.lean ====
section
/-!
SUPPORT. What `fetch` and `step` can do, once: the step of spec/40_engine_cycle.md R70 by cases.
-/

namespace Sys2Proof.Machine

theorem operandAddress_toNat (s : State) (k : Nat) : (operandAddress s k).toNat = s.pc.toNat + k :=
  Int.toNat_natCast _

theorem memRead_operandAddress (s : State) {k : Nat} (h : s.pc.toNat + k < 256) :
    memRead s (operandAddress s k) = .ok (Memory.read s.mem (s.pc.toNat + k)) := by
  rw [memRead_inRange s ((operandAddress_inRange s k).mpr h)]
  rw [operandAddress_toNat]

@[simp] theorem byteOrZero_ok (b : Byte) : byteOrZero (.ok b) = b := rfl

@[simp] theorem byteOrZero_error (tr : Trap) : byteOrZero (.error tr) = 0#8 := rfl

theorem windowByte_inRange (s : State) {k : Nat} (h : s.pc.toNat + k < 256) :
    windowByte s k = Memory.read s.mem (s.pc.toNat + k) := by
  unfold windowByte; rw [memRead_operandAddress s h]; rfl

/-- Everything the step does before it executes an instruction. -/
theorem fetch_cases (s : State) :
    (s.rs ≠ .running ∧ fetch s = .done s) ∨
    (s.rs = .running ∧ 256 ≤ s.pc.toNat ∧ fetch s = .done (halt s .ended)) ∨
    (s.rs = .running ∧ s.pc.toNat < 256 ∧ mnemonicOf (Memory.read s.mem s.pc.toNat) = none
      ∧ fetch s = .done (takeFault s (unknownOpcode (Memory.read s.mem s.pc.toNat)))) ∨
    (∃ i rest, s.rs = .running ∧ s.pc.toNat < 256 ∧ decode (fetchWindow s) = .ok (i, rest)
      ∧ fetch s = .instr i) := by
  by_cases hr : s.rs = .running
  · by_cases hp : Config.memoryBytes ≤ s.pc.toNat
    · exact .inr (.inl ⟨hr, hp, by simp [fetch, hr, hp]⟩)
    · have hp' : s.pc.toNat < 256 := by simpa [Config.memoryBytes] using hp
      have h0 : windowByte s 0 = Memory.read s.mem s.pc.toNat := windowByte_inRange s (k := 0) hp'
      rcases decode_three (windowByte s 0) (windowByte s 1) (windowByte s 2) with ⟨hm, hd⟩ | ⟨m, r, _, _, hd⟩
      · refine .inr (.inr (.inl ⟨hr, hp', by rw [← h0]; exact hm, ?_⟩))
        simp only [fetch, hr, hp, fetchWindow, hd, decodeTrap, ne_eq, not_true, if_false]
        rw [h0]
      · refine .inr (.inr (.inr ⟨r.1, r.2, hr, hp', hd, ?_⟩))
        simp only [fetch, hr, hp, fetchWindow, hd, ne_eq, not_true, if_false]
  · exact .inl ⟨hr, by simp [fetch, hr]⟩

/-- The step by cases: stopped, past the end of memory, unknown opcode, or the decoded instruction. -/
theorem step_cases (s : State) :
    (s.rs ≠ .running ∧ step s = .next s) ∨
    (s.rs = .running ∧ 256 ≤ s.pc.toNat ∧ step s = .next (halt s .ended)) ∨
    (s.rs = .running ∧ s.pc.toNat < 256 ∧ mnemonicOf (Memory.read s.mem s.pc.toNat) = none
      ∧ step s = .next (takeFault s (unknownOpcode (Memory.read s.mem s.pc.toNat)))) ∨
    (∃ i rest, s.rs = .running ∧ s.pc.toNat < 256 ∧ decode (fetchWindow s) = .ok (i, rest)
      ∧ step s = exec i s) := by
  rcases fetch_cases s with ⟨h, e⟩ | ⟨h, hp, e⟩ | ⟨h, hp, hm, e⟩ | ⟨i, rest, h, hp, hd, e⟩
  · exact .inl ⟨h, by simp only [step, e]⟩
  · exact .inr (.inl ⟨h, hp, by simp only [step, e]⟩)
  · exact .inr (.inr (.inl ⟨h, hp, hm, by simp only [step, e]⟩))
  · exact .inr (.inr (.inr ⟨i, rest, h, hp, hd, by simp only [step, e]⟩))

end Sys2Proof.Machine
end

