-- ==== Sys2Proof/Tests/Slice0.lean ====
section
/-!
SUPPORT. The model's own tests: the well-formedness smoke test, one word per constructor written out from
spec/30_encoding.md R55 and R52, single steps from the vectors V<n> of spec/95_test_vectors.md, and for
every obligation with hypotheses the states and operands that meet them. Every expected value is the spec's.
-/

open Sys2Proof Sys2Proof.Machine

namespace Sys2Proof.Tests

/-- The engine as reset leaves it (R22), with PC at an address and bytes there. -/
def engine (pc : Nat) (bytes : List Byte) : State :=
  placeAtPc { State.reset with pc := BitVec.ofNat 9 pc } bytes

/-- The same state with registers written. -/
def before (s : State) (values : List (Reg × Byte)) : State :=
  values.foldl (fun u p => writeReg u p.1 p.2) s

/-- The same state with one byte of memory written. -/
def poke (s : State) (a : Nat) (v : Byte) : State := { s with mem := Memory.write s.mem a v }

/-- What the next state shows, if there is one. -/
def after {α : Type} (o : Host.Outcome State Fault Refusal) (f : State → α) : Option α :=
  match o with
  | .next t => some (f t)
  | .fault _ => none
  | .refused _ => none

/-- RS, CAUSE, INFO and PC. -/
def ending (s : State) : RunState × Cause × Word9 × Word9 := (s.rs, s.cause, s.info, s.pc)

/-! ## Well-formedness (R53) -/

theorem test_wellFormed_accepts :
    ([.hlt, .ret, .ldi 7#8 0xFF#8, .prn 7#8, .jeq 0#8, .add 7#8 0#8] : List Instr).all Instr.wellFormed = true := by decide

theorem test_illFormed_ldi : Instr.wellFormed (.ldi 8#8 0#8) = false := by decide

theorem test_illFormed_prn : Instr.wellFormed (.prn 8#8) = false := by decide

theorem test_illFormed_push : Instr.wellFormed (.push 8#8) = false := by decide

theorem test_illFormed_pop : Instr.wellFormed (.pop 8#8) = false := by decide

theorem test_illFormed_call : Instr.wellFormed (.call 8#8) = false := by decide

theorem test_illFormed_jmp : Instr.wellFormed (.jmp 8#8) = false := by decide

theorem test_illFormed_jeq : Instr.wellFormed (.jeq 8#8) = false := by decide

theorem test_illFormed_jne : Instr.wellFormed (.jne 8#8) = false := by decide

theorem test_illFormed_add_a : Instr.wellFormed (.add 8#8 7#8) = false := by decide

theorem test_illFormed_add_b : Instr.wellFormed (.add 7#8 8#8) = false := by decide

theorem test_illFormed_sub_a : Instr.wellFormed (.sub 8#8 7#8) = false := by decide

theorem test_illFormed_sub_b : Instr.wellFormed (.sub 7#8 8#8) = false := by decide

theorem test_illFormed_mul_a : Instr.wellFormed (.mul 8#8 7#8) = false := by decide

theorem test_illFormed_mul_b : Instr.wellFormed (.mul 7#8 8#8) = false := by decide

theorem test_illFormed_div_a : Instr.wellFormed (.div 8#8 7#8) = false := by decide

theorem test_illFormed_div_b : Instr.wellFormed (.div 7#8 8#8) = false := by decide

theorem test_illFormed_mod_a : Instr.wellFormed (.mod 8#8 7#8) = false := by decide

theorem test_illFormed_mod_b : Instr.wellFormed (.mod 7#8 8#8) = false := by decide

theorem test_illFormed_cmp_a : Instr.wellFormed (.cmp 8#8 7#8) = false := by decide

theorem test_illFormed_cmp_b : Instr.wellFormed (.cmp 7#8 8#8) = false := by decide

theorem test_illFormed_and_a : Instr.wellFormed (.and 8#8 7#8) = false := by decide

theorem test_illFormed_and_b : Instr.wellFormed (.and 7#8 8#8) = false := by decide

theorem test_illFormed_or_a : Instr.wellFormed (.or 8#8 7#8) = false := by decide

theorem test_illFormed_or_b : Instr.wellFormed (.or 7#8 8#8) = false := by decide

theorem test_illFormed_xor_a : Instr.wellFormed (.xor 8#8 7#8) = false := by decide

theorem test_illFormed_xor_b : Instr.wellFormed (.xor 7#8 8#8) = false := by decide

theorem test_illFormed_shl_a : Instr.wellFormed (.shl 8#8 7#8) = false := by decide

theorem test_illFormed_shl_b : Instr.wellFormed (.shl 7#8 8#8) = false := by decide

theorem test_illFormed_shr_a : Instr.wellFormed (.shr 8#8 7#8) = false := by decide

theorem test_illFormed_shr_b : Instr.wellFormed (.shr 7#8 8#8) = false := by decide

/-! ## Decoding: one word per constructor, bit by bit from R51, R52 and R55 (NOPS, ALU, SETPC, ID) -/

theorem test_decode_hlt : decode [0b00000001#8, 0xEE#8] = .ok (.hlt, [0xEE#8]) := by decide

theorem test_decode_ldi : decode [0b10000010#8, 0b00000011#8, 0b00000110#8, 0xEE#8] = .ok (.ldi 3#8 6#8, [0xEE#8]) := by decide

theorem test_decode_prn : decode [0b01000111#8, 0b00000011#8, 0xEE#8] = .ok (.prn 3#8, [0xEE#8]) := by decide

theorem test_decode_push : decode [0b01000101#8, 0b00000011#8, 0xEE#8] = .ok (.push 3#8, [0xEE#8]) := by decide

theorem test_decode_pop : decode [0b01000110#8, 0b00000011#8, 0xEE#8] = .ok (.pop 3#8, [0xEE#8]) := by decide

theorem test_decode_call : decode [0b01010000#8, 0b00000011#8, 0xEE#8] = .ok (.call 3#8, [0xEE#8]) := by decide

theorem test_decode_ret : decode [0b00010001#8, 0xEE#8] = .ok (.ret, [0xEE#8]) := by decide

theorem test_decode_jmp : decode [0b01010100#8, 0b00000011#8, 0xEE#8] = .ok (.jmp 3#8, [0xEE#8]) := by decide

theorem test_decode_jeq : decode [0b01010101#8, 0b00000011#8, 0xEE#8] = .ok (.jeq 3#8, [0xEE#8]) := by decide

theorem test_decode_jne : decode [0b01010110#8, 0b00000011#8, 0xEE#8] = .ok (.jne 3#8, [0xEE#8]) := by decide

theorem test_decode_add : decode [0b10100000#8, 0b00000011#8, 0b00000110#8, 0xEE#8] = .ok (.add 3#8 6#8, [0xEE#8]) := by decide

theorem test_decode_sub : decode [0b10100001#8, 0b00000011#8, 0b00000110#8, 0xEE#8] = .ok (.sub 3#8 6#8, [0xEE#8]) := by decide

theorem test_decode_mul : decode [0b10100010#8, 0b00000011#8, 0b00000110#8, 0xEE#8] = .ok (.mul 3#8 6#8, [0xEE#8]) := by decide

theorem test_decode_div : decode [0b10100011#8, 0b00000011#8, 0b00000110#8, 0xEE#8] = .ok (.div 3#8 6#8, [0xEE#8]) := by decide

theorem test_decode_mod : decode [0b10100100#8, 0b00000011#8, 0b00000110#8, 0xEE#8] = .ok (.mod 3#8 6#8, [0xEE#8]) := by decide

theorem test_decode_cmp : decode [0b10100111#8, 0b00000011#8, 0b00000110#8, 0xEE#8] = .ok (.cmp 3#8 6#8, [0xEE#8]) := by decide

theorem test_decode_and : decode [0b10101000#8, 0b00000011#8, 0b00000110#8, 0xEE#8] = .ok (.and 3#8 6#8, [0xEE#8]) := by decide

theorem test_decode_or : decode [0b10101010#8, 0b00000011#8, 0b00000110#8, 0xEE#8] = .ok (.or 3#8 6#8, [0xEE#8]) := by decide

theorem test_decode_xor : decode [0b10101011#8, 0b00000011#8, 0b00000110#8, 0xEE#8] = .ok (.xor 3#8 6#8, [0xEE#8]) := by decide

theorem test_decode_shl : decode [0b10101100#8, 0b00000011#8, 0b00000110#8, 0xEE#8] = .ok (.shl 3#8 6#8, [0xEE#8]) := by decide

theorem test_decode_shr : decode [0b10101101#8, 0b00000011#8, 0b00000110#8, 0xEE#8] = .ok (.shr 3#8 6#8, [0xEE#8]) := by decide

/-- R57: 235 of the 256 bytes are illegal, 0x00 and every byte with NOPS = 3 among them. -/
theorem test_decode_illegal :
    ([0x00#8, 0x65#8, 0xA5#8, 0xA6#8, 0xA9#8, 0xAE#8, 0xAF#8, 0xC0#8, 0xC1#8, 0xFF#8] : List Byte).all
      (fun b => (mnemonicOf b).isNone) = true := by decide

theorem test_decode_short :
    decode [] = .error .noOpcode ∧ decode [0x47#8] = .error (.truncated 0x47#8) ∧
      decode [0xA0#8, 1#8] = .error (.truncated 0xA0#8) := by decide

/-- The table numbers the opcode bits 7:0, operand a 15:8 and operand b 23:16. -/
theorem test_decodeTableWord :
    decodeTableWord 24 0x0506A3 = some (.div 6#8 5#8) ∧ decodeTableWord 8 0x82 = some (.ldi 0#8 0#8) ∧
      decodeTableWord 24 0x0506C0 = none := by decide

/-- The host's first instruction after reset: LDI R3,5 and, from its opcode bits alone, PRN R0. -/
theorem test_withFetchWord :
    after (step (State.reset.withFetchWord 24 0x050382)) (fun t => (readReg t .r3, t.pc)) = some (5#8, 3#9) ∧
      after (step (State.reset.withFetchWord 8 0x47)) (fun t => (t.out, t.pc)) = some ([0#8], 2#9) := by decide

/-! ## The engine cycle (V1 to V7) -/

/-- V1, R74. -/
theorem test_unknown_zero :
    after (step (engine 0 [0x00#8])) ending
      = some (.fault, .unknownOpcode, 0#9, 0#9) := by decide

/-- V2, R168. -/
theorem test_unknown_before_operands :
    after (step (engine 255 [0xA5#8])) ending
      = some (.fault, .unknownOpcode, 0xA5#9, 0xFF#9) := by decide

/-- V4, R71. -/
theorem test_end_of_memory :
    after (step (engine 256 [])) ending
      = some (.ended, .none, 0#9, 0x100#9) := by decide

/-- V6, R72. -/
theorem test_halted_absorbs :
    after (step (halt (engine 0 [0x01#8]) .halted)) id = some (halt (engine 0 [0x01#8]) .halted) := by decide

/-- V7, R57, R162. -/
theorem test_not_an_alu_opcode :
    after (step (engine 0 [0x65#8])) ending
      = some (.fault, .unknownOpcode, 0x65#9, 0#9) := by decide

/-! ## Instructions (V10 to V91) -/

/-- V10, R90. -/
theorem test_hlt :
    after (step (engine 11 [0x01#8])) ending
      = some (.halted, .none, 0#9, 0x0C#9) := by decide

/-- V11: HALTED, not ENDED. -/
theorem test_hlt_at_top :
    after (step (engine 255 [0x01#8])) ending
      = some (.halted, .none, 0#9, 0x100#9) := by decide

/-- V13: R7 is ordinary. -/
theorem test_ldi :
    after (step (engine 0 [0x82#8, 0x07#8, 0x20#8])) (fun t => (readReg t .r7, t.pc))
      = some (0x20#8, 3#9) := by decide

/-- V15, R91. -/
theorem test_ldi_past_memory :
    after (step (engine 254 [0x82#8, 0x03#8])) ending
      = some (.fault, .outOfRange, 0x100#9, 0xFE#9) := by decide

/-- V18, R92. -/
theorem test_prn :
    after (step (before (engine 9 [0x47#8, 0x00#8]) [(.r0, 0x48#8)])) (fun t => (t.out, t.pc))
      = some ([72#8], 0x0B#9) := by decide

/-- V20, R92. -/
theorem test_prn_past_memory :
    after (step (engine 255 [0x47#8])) ending
      = some (.fault, .outOfRange, 0x100#9, 0xFF#9) := by decide

/-- V26, R100. -/
theorem test_push_wraps :
    after (step (before (engine 0 [0x45#8, 0x00#8]) [(.r0, 0xAB#8), (.r7, 0x00#8)])) (fun t => (readReg t .r7, byteAt t 0xFF, t.pc))
      = some (0xFF#8, 0xAB#8, 2#9) := by decide

/-- V27: the decremented SP is stored. -/
theorem test_push_r7 :
    after (step (engine 0 [0x45#8, 0x07#8])) (fun t => (readReg t .r7, byteAt t 0xF3, t.pc))
      = some (0xF3#8, 0xF3#8, 2#9) := by decide

/-- V30, R101. -/
theorem test_pop_wraps :
    after (step (before (poke (engine 0 [0x46#8, 0x01#8]) 255 0x77#8) [(.r7, 0xFF#8)])) (fun t => (readReg t .r1, readReg t .r7, t.pc))
      = some (0x77#8, 0x00#8, 2#9) := by decide

/-- V31: loaded, then incremented. -/
theorem test_pop_r7 :
    after (step (poke (engine 0 [0x46#8, 0x07#8]) 244 0x20#8)) (fun t => (readReg t .r7, t.pc))
      = some (0x21#8, 2#9) := by decide

/-- V36, R110. -/
theorem test_call :
    after (step (before (engine 253 [0x50#8, 0x01#8]) [(.r1, 0x40#8)])) (fun t => (readReg t .r7, byteAt t 0xF3, t.pc))
      = some (0xF3#8, 0xFF#8, 0x40#9) := by decide

/-- V37, R110. -/
theorem test_call_at_254 :
    after (step (engine 254 [0x50#8, 0x00#8])) ending
      = some (.fault, .outOfRange, 0x100#9, 0xFE#9) := by decide

/-- V40a, R111. -/
theorem test_ret :
    after (step (before (poke (engine 14 [0x11#8]) 243 0x08#8) [(.r7, 0xF3#8)])) (fun t => (readReg t .r7, t.pc))
      = some (0xF4#8, 0x08#9) := by decide

/-- V40b, R111. -/
theorem test_ret_wraps :
    after (step (before (poke (engine 0 [0x11#8]) 255 0x33#8) [(.r7, 0xFF#8)])) (fun t => (readReg t .r7, t.pc))
      = some (0x00#8, 0x33#9) := by decide

/-- V40c, R112. -/
theorem test_jmp :
    after (step (before (engine 24 [0x54#8, 0x04#8]) [(.r4, 0x0F#8)])) (fun t => (readReg t .r4, t.pc))
      = some (0x0F#8, 0x0F#9) := by decide

/-- V40d, R112. -/
theorem test_jmp_invalid :
    after (step (engine 0 [0x54#8, 0x08#8])) ending
      = some (.fault, .invalidRegister, 8#9, 0#9) := by decide

/-- V40e, R113. -/
theorem test_jeq_taken :
    after (step (setFlags (before (engine 12 [0x55#8, 0x02#8]) [(.r2, 0x10#8)]) 0x01#8)) (fun t => (t.pc, t.fl))
      = some (0x10#9, 0x01#8) := by decide

/-- V40h: no operand is read. -/
theorem test_jeq_untaken_at_top :
    after (step (engine 255 [0x55#8])) ending
      = some (.running, .none, 0#9, 0x101#9) := by decide

/-- V40n, R114. -/
theorem test_jne_taken :
    after (step (setFlags (before (engine 24 [0x56#8, 0x04#8]) [(.r4, 0x0F#8)]) 0x02#8)) (fun t => (t.pc, t.fl))
      = some (0x0F#9, 0x02#8) := by decide

/-- V40l: the invalid operand is never looked at. -/
theorem test_jne_untaken :
    after (step (setFlags (engine 254 [0x56#8, 0x09#8]) 0x01#8)) ending
      = some (.running, .none, 0#9, 0x100#9) := by decide

/-- V41, R121. -/
theorem test_add :
    after (step (before (engine 0 [0xA0#8, 0x00#8, 0x01#8]) [(.r0, 0xC8#8), (.r1, 0x64#8)])) (fun t => (readReg t .r0, t.pc))
      = some (44#8, 3#9) := by decide

/-- V46, R122. -/
theorem test_sub :
    after (step (before (engine 0 [0xA1#8, 0x00#8, 0x01#8]) [(.r0, 0x05#8), (.r1, 0x0A#8)])) (fun t => (readReg t .r0, t.pc))
      = some (251#8, 3#9) := by decide

/-- V52, R123. -/
theorem test_mul :
    after (step (before (engine 0 [0xA2#8, 0x00#8, 0x01#8]) [(.r0, 0xC8#8), (.r1, 0x02#8)])) (fun t => (readReg t .r0, t.pc))
      = some (144#8, 3#9) := by decide

/-- V51. -/
theorem test_mul_square :
    after (step (before (engine 0 [0xA2#8, 0x00#8, 0x01#8]) [(.r0, 0xFF#8), (.r1, 0xFF#8)])) (fun t => (readReg t .r0, t.pc))
      = some (1#8, 3#9) := by decide

/-- V53, R124. -/
theorem test_div :
    after (step (before (engine 0 [0xA3#8, 0x00#8, 0x01#8]) [(.r0, 0x0A#8), (.r1, 0x03#8)])) (fun t => (readReg t .r0, t.pc))
      = some (3#8, 3#9) := by decide

/-- V57, R163. -/
theorem test_div_by_zero :
    after (step (before (engine 0 [0xA3#8, 0x00#8, 0x01#8]) [(.r0, 0x0A#8), (.r1, 0x00#8)])) ending
      = some (.fault, .divisionByZero, 1#9, 0#9) := by decide

/-- V60, R125. -/
theorem test_mod :
    after (step (before (engine 0 [0xA4#8, 0x00#8, 0x01#8]) [(.r0, 0xFF#8), (.r1, 0x10#8)])) (fun t => (readReg t .r0, t.pc))
      = some (15#8, 3#9) := by decide

/-- V61, R163. -/
theorem test_mod_by_zero :
    after (step (before (engine 0 [0xA4#8, 0x02#8, 0x03#8]) [(.r2, 0x09#8)])) ending
      = some (.fault, .divisionByZero, 3#9, 0#9) := by decide

/-- V72, R130. -/
theorem test_cmp_unsigned :
    after (step (before (engine 0 [0xA7#8, 0x00#8, 0x01#8]) [(.r0, 0xFF#8), (.r1, 0x01#8)])) (fun t => (t.fl, t.pc))
      = some (0x02#8, 3#9) := by decide

/-- V74: E replaces L. -/
theorem test_cmp_clears :
    after (step (setFlags (before (engine 0 [0xA7#8, 0x05#8, 0x05#8]) [(.r5, 0x63#8)]) 0x04#8)) (fun t => (t.fl, t.pc))
      = some (0x01#8, 3#9) := by decide

/-- V76, R131. -/
theorem test_and :
    after (step (before (engine 0 [0xA8#8, 0x00#8, 0x01#8]) [(.r0, 0xCC#8), (.r1, 0xAA#8)])) (fun t => (readReg t .r0, t.pc))
      = some (0x88#8, 3#9) := by decide

/-- V77, R132. -/
theorem test_or :
    after (step (before (engine 0 [0xAA#8, 0x00#8, 0x01#8]) [(.r0, 0xCC#8), (.r1, 0xAA#8)])) (fun t => (readReg t .r0, t.pc))
      = some (0xEE#8, 3#9) := by decide

/-- V78, R133. -/
theorem test_xor :
    after (step (before (engine 0 [0xAB#8, 0x00#8, 0x01#8]) [(.r0, 0xCC#8), (.r1, 0xAA#8)])) (fun t => (readReg t .r0, t.pc))
      = some (0x66#8, 3#9) := by decide

/-- V81, R134. -/
theorem test_shl :
    after (step (before (engine 0 [0xAC#8, 0x00#8, 0x01#8]) [(.r0, 0x13#8), (.r1, 0x03#8)])) (fun t => (readReg t .r0, t.pc))
      = some (0x98#8, 3#9) := by decide

/-- V85: the count is not reduced. -/
theorem test_shl_whole_count :
    after (step (before (engine 0 [0xAC#8, 0x00#8, 0x01#8]) [(.r0, 0x01#8), (.r1, 0xFF#8)])) (fun t => (readReg t .r0, t.pc))
      = some (0x00#8, 3#9) := by decide

/-- V88: logical. -/
theorem test_shr :
    after (step (before (engine 0 [0xAD#8, 0x00#8, 0x01#8]) [(.r0, 0x80#8), (.r1, 0x01#8)])) (fun t => (readReg t .r0, t.pc))
      = some (0x40#8, 3#9) := by decide

/-- V90. -/
theorem test_shr_eight :
    after (step (before (engine 0 [0xAD#8, 0x00#8, 0x01#8]) [(.r0, 0xFF#8), (.r1, 0x08#8)])) (fun t => (readReg t .r0, t.pc))
      = some (0x00#8, 3#9) := by decide

/-- V65, R120. -/
theorem test_alu_a_before_b :
    after (step (engine 0 [0xA0#8, 0x09#8, 0x08#8])) ending
      = some (.fault, .invalidRegister, 9#9, 0#9) := by decide

/-! ## Witnesses: states and operands that meet the hypotheses of the obligations, at the edges of their ranges -/

theorem next_of_after {α : Type} {o : Host.Outcome State Fault Refusal} {f : State → α} {v : α}
    (h : after o f = some v) : ∃ t, o = .next t ∧ f t = v := by
  cases o with
  | next t => exact ⟨t, rfl, Option.some.inj h⟩
  | fault r => cases r
  | refused r => cases h

theorem answers_of_after {α : Type} {o : Host.Outcome State Fault Refusal} {f : State → α} {v : α}
    (h : after o f = some v) : ∃ t, o = .next t := by
  obtain ⟨t, e, _⟩ := next_of_after h
  exact ⟨t, e⟩

theorem witness_DecodeEncodeRoundTrip :
    encode (.jmp 3#8) ++ [0x01#8] = encode (.jmp 3#8) ++ [0x01#8] := rfl

theorem witness_DecodedBytesAreTheEncoding :
    decode [0xA0#8, 1#8, 2#8, 0xEE#8] = .ok (.add 1#8 2#8, [0xEE#8]) := by decide

theorem witness_InstructionLengthIsOnePlusNops :
    decode [0x01#8] = .ok (.hlt, []) ∧ decode [0x47#8, 7#8] = .ok (.prn 7#8, []) ∧
      decode [0x82#8, 7#8, 0xFF#8] = .ok (.ldi 7#8 0xFF#8, []) := by decide

theorem witness_OperandByteSelectsItsRegister : 8 ≤ (8#8).toNat ∧ 8 ≤ (0xFF#8).toNat := by decide

theorem witness_MemReadContract :
    ((0 : Int) ≤ 0 ∧ (0 : Int) < 256) ∧ ((0 : Int) ≤ 255 ∧ (255 : Int) < 256) ∧
      ((-1 : Int) < 0 ∨ (256 : Int) ≤ -1) ∧ ((256 : Int) < 0 ∨ (256 : Int) ≤ 256) := by decide

theorem witness_MemWriteContract :
    MemoryCanonical (engine 0 [0x01#8]) ∧ ((0 : Int) ≤ 255 ∧ (255 : Int) < 256) ∧
      ((-1 : Int) < 0 ∨ (256 : Int) ≤ -1) ∧ ((256 : Int) < 0 ∨ (256 : Int) ≤ 256) := by decide

/-- The two writes in either order. -/
theorem witness_CanonicalMemoryIsItsBytes :
    Memory.wf (Memory.write (Memory.write [] 255 2#8) 0 1#8) = true ∧
      Memory.wf (Memory.write (Memory.write [] 0 1#8) 255 2#8) = true ∧
      ∀ a : Nat, a < 256 → Memory.read (Memory.write (Memory.write [] 255 2#8) 0 1#8) a
        = Memory.read (Memory.write (Memory.write [] 0 1#8) 255 2#8) a :=
  ⟨by decide, by decide, fun _ _ => rfl⟩

/-- PUSH R0 and PUSH R7 at 254, CALL R1 at 253, each with its fetch from the stored byte. -/
theorem witness_FetchSeesStoredByte :
    (∃ t u : State, exec (.push Reg.r0.index) (before (engine 254 []) [(.r0, 0xAB#8)]) = .next t ∧ u.mem = t.mem ∧
      (engine 254 []).pc.toNat ≤ 254 ∧ MemoryCanonical (before (engine 254 []) [(.r0, 0xAB#8)]) ∧
      0xAB#8 = (if Reg.r0 = .r7 then readReg (before (engine 254 []) [(.r0, 0xAB#8)]) .r7 - 1#8
        else readReg (before (engine 254 []) [(.r0, 0xAB#8)]) .r0) ∧ u.pc.toNat = (0xF4#8 - 1#8).toNat) ∧
    (∃ t u : State, exec (.push Reg.r7.index) (engine 254 []) = .next t ∧ u.mem = t.mem ∧
      0xF3#8 = (if Reg.r7 = .r7 then readReg (engine 254 []) .r7 - 1#8 else readReg (engine 254 []) .r7) ∧
      u.pc.toNat = (0xF4#8 - 1#8).toNat) ∧
    (∃ t u : State, exec (.call Reg.r1.index) (engine 253 []) = .next t ∧ u.mem = t.mem ∧
      (engine 253 []).pc.toNat ≤ 253 ∧ (0xFF#8).toNat = (engine 253 []).pc.toNat + 2 ∧
      u.pc.toNat = (0xF4#8 - 1#8).toNat) := by
  obtain ⟨t, h⟩ := answers_of_after (f := fun t => t.rs) (v := .running)
    (o := exec (.push Reg.r0.index) (before (engine 254 []) [(.r0, 0xAB#8)])) (by decide)
  obtain ⟨t', h'⟩ := answers_of_after (f := fun t => t.rs) (v := .running)
    (o := exec (.push Reg.r7.index) (engine 254 [])) (by decide)
  obtain ⟨t'', h''⟩ := answers_of_after (f := fun t => t.rs) (v := .running)
    (o := exec (.call Reg.r1.index) (engine 253 [])) (by decide)
  exact ⟨⟨t, { t with pc := 0xF3#9 }, h, rfl, by decide, by decide, by decide, rfl⟩,
    ⟨t', { t' with pc := 0xF3#9 }, h', rfl, by decide, rfl⟩,
    ⟨t'', { t'' with pc := 0xF3#9 }, h'', rfl, by decide, by decide, rfl⟩⟩

theorem witness_StepRunsDecodedInstruction :
    (engine 0 [0x82#8, 3#8, 9#8]).rs = .running ∧ (engine 0 [0x82#8, 3#8, 9#8]).pc.toNat ≤ 255 ∧
      decode (fetchWindow (engine 0 [0x82#8, 3#8, 9#8])) = .ok (.ldi 3#8 9#8, []) := by
  have h : fetchWindow (engine 0 [0x82#8, 3#8, 9#8]) = [0x82#8, 3#8, 9#8] := by decide
  rw [h]; decide

/-- At 255 the operand byte is one of the zeros past memory. -/
theorem witness_StepRunsDecodedInstruction_at_255 :
    (engine 255 [0x11#8]).rs = .running ∧ (engine 255 [0x11#8]).pc.toNat ≤ 255 ∧
      decode (fetchWindow (engine 255 [0x11#8])) = .ok (.ret, [0#8, 0#8]) := by
  have h : fetchWindow (engine 255 [0x11#8]) = [0x11#8, 0#8, 0#8] := by decide
  rw [h]; decide

theorem witness_StepRunsInstructionInMemory :
    (engine 253 [0x82#8, 3#8, 0x99#8]).rs = .running ∧
      (engine 253 [0x82#8, 3#8, 0x99#8]).pc.toNat + (Instr.ldi 3#8 0x99#8).length ≤ 256 ∧
      ∀ k : Nat, k < (Instr.ldi 3#8 0x99#8).length → (encode (.ldi 3#8 0x99#8))[k]?
        = some (byteAt (engine 253 [0x82#8, 3#8, 0x99#8]) ((engine 253 [0x82#8, 3#8, 0x99#8]).pc.toNat + k)) := by
  decide

/-- At 255 no operand byte is in memory, at 254 the first one is. -/
theorem witness_OperandBytesPastMemoryAreUnused :
    ((Instr.prn 1#8).mnemonic = (Instr.prn 2#8).mnemonic ∧
      ∀ k : Nat, (engine 255 []).pc.toNat + 1 + k ≤ 255 →
        (Instr.prn 1#8).operandBytes[k]? = (Instr.prn 2#8).operandBytes[k]?) ∧
    ((Instr.ldi 3#8 1#8).mnemonic = (Instr.ldi 3#8 2#8).mnemonic ∧
      ∀ k : Nat, (engine 254 []).pc.toNat + 1 + k ≤ 255 →
        (Instr.ldi 3#8 1#8).operandBytes[k]? = (Instr.ldi 3#8 2#8).operandBytes[k]?) := by
  have h255 : (engine 255 []).pc.toNat = 255 := by decide
  have h254 : (engine 254 []).pc.toNat = 254 := by decide
  refine ⟨⟨rfl, fun k hk => ?_⟩, rfl, fun k hk => ?_⟩
  · omega
  · have : k = 0 := by omega
    rw [this]; rfl

theorem witness_StoppedEngineNeverMoves :
    (halt (engine 0 []) .halted).rs ≠ .running ∧ (halt (engine 256 []) .ended).rs ≠ .running ∧
      (faulted (engine 0 []) .unknownOpcode 0#9).rs ≠ .running := by decide

theorem witness_EndOfMemoryEndsTheRun :
    ((engine 256 []).rs = .running ∧ 256 ≤ (engine 256 []).pc.toNat) ∧
      ((engine 511 []).rs = .running ∧ 256 ≤ (engine 511 []).pc.toNat) := by decide

theorem witness_UnknownOpcodeFaults :
    (engine 255 [0xA5#8]).rs = .running ∧ (engine 255 [0xA5#8]).pc.toNat ≤ 255 ∧
      byteAt (engine 255 [0xA5#8]) (engine 255 [0xA5#8]).pc.toNat ∉ [0x01#8, 0x82#8, 0x47#8, 0x45#8, 0x46#8,
        0x50#8, 0x11#8, 0x54#8, 0x55#8, 0x56#8, 0xA0#8, 0xA1#8, 0xA2#8, 0xA3#8, 0xA4#8, 0xA7#8, 0xA8#8, 0xAA#8,
        0xAB#8, 0xAC#8, 0xAD#8] := by decide

/-- A step into each of the four causes. -/
theorem witness_FaultsArePrecise :
    (∃ t, step (engine 0 []) = .next t ∧ (t.rs, t.cause) = (.fault, .unknownOpcode)) ∧
    (∃ t, step (engine 255 [0x47#8]) = .next t ∧ (t.rs, t.cause) = (.fault, .outOfRange)) ∧
    (∃ t, step (engine 0 [0x47#8, 8#8]) = .next t ∧ (t.rs, t.cause) = (.fault, .invalidRegister)) ∧
    (∃ t, step (engine 0 [0xA3#8, 0#8, 1#8]) = .next t ∧ (t.rs, t.cause) = (.fault, .divisionByZero)) :=
  ⟨next_of_after (by decide), next_of_after (by decide), next_of_after (by decide), next_of_after (by decide)⟩

theorem witness_RunEndsOnlyByHltOrEndOrFault :
    (∃ t, step (engine 255 [0x01#8]) = .next t ∧ t.rs = .halted) ∧
    (∃ t, step (engine 256 []) = .next t ∧ t.rs = .ended) ∧
    (∃ t, step (engine 0 []) = .next t ∧ t.rs = .fault) :=
  ⟨next_of_after (by decide), next_of_after (by decide), next_of_after (by decide)⟩

theorem witness_NormalEndsAreNoFaults :
    (∃ t, step (engine 0 [0x01#8]) = .next t ∧ (t.rs, (engine 0 [0x01#8]).rs, (engine 0 [0x01#8]).cause)
      = (.halted, .running, .none)) ∧
    (∃ t, step (engine 257 []) = .next t ∧ t.rs = .ended) ∧
    (∃ t, step (engine 255 [0xC0#8]) = .next t ∧
      ((engine 255 [0xC0#8]).pc.toNat, mnemonicOf (byteAt (engine 255 [0xC0#8]) 255)) = (255, none)) :=
  ⟨next_of_after (by decide), next_of_after (by decide),
    (answers_of_after (f := fun t => t.rs) (v := .fault) (by decide)).imp fun _ h => ⟨h, by decide⟩⟩

theorem witness_ResetValues : Reg.r0 ≠ .r7 ∧ Reg.r6 ≠ .r7 := by decide

theorem witness_BootPlacesTheImage :
    (List.replicate 256 (7#8 : Byte)).length ≤ 256 ∧ 255 < (List.replicate 256 (7#8 : Byte)).length := by
  rw [List.length_replicate]; decide

theorem witness_BootPlacesTheImage_rest :
    ([0x01#8] : List Byte).length ≤ 256 ∧ ([0x01#8] : List Byte).length ≤ 1 := by decide

/-- A PRN at 254 makes its transfer, a PRN that faults makes none. -/
theorem witness_OutTransfersOncePerPrn :
    (∃ t, step (engine 254 [0x47#8, 7#8]) = .next t ∧ outTransfer (engine 254 [0x47#8, 7#8]) t = some 0xF4#8) ∧
    (∃ t, step (engine 254 [0x47#8, 8#8]) = .next t ∧ outTransfer (engine 254 [0x47#8, 8#8]) t = none) :=
  ⟨next_of_after (by decide), next_of_after (by decide)⟩

/-- A PUSH of the byte that unlisted memory reads as, over a listed cell. -/
theorem witness_StepKeepsMemoryCanonical :
    MemoryCanonical (poke (engine 0 [0x45#8, 0#8]) 0xF3 7#8) ∧
      ∃ t, step (poke (engine 0 [0x45#8, 0#8]) 0xF3 7#8) = .next t ∧ byteAt t 0xF3 = 0#8 :=
  ⟨by decide, next_of_after (by decide)⟩

theorem witness_StepKeepsFlagsExclusive :
    FlagsExclusive (setFlags (engine 0 [0xA7#8, 0#8, 0#8]) 4#8) ∧ FlagsExclusive (setFlags (engine 0 []) 2#8) ∧
      FlagsExclusive (engine 0 []) ∧
      ∃ t, step (setFlags (engine 0 [0xA7#8, 0#8, 0#8]) 4#8) = .next t ∧ t.fl = 1#8 :=
  ⟨by decide, by decide, by decide, next_of_after (by decide)⟩

/-- An untaken JEQ at 255 reaches the largest PC, 257; a faulted machine is consistent too. -/
theorem witness_StepKeepsPcAndStatus :
    (PcReachable (engine 255 [0x55#8]) ∧ StatusConsistent (engine 255 [0x55#8]) ∧
      ∃ t, step (engine 255 [0x55#8]) = .next t ∧ t.pc = 257#9) ∧
    (PcReachable (faulted (engine 254 []) .outOfRange 256#9) ∧
      StatusConsistent (faulted (engine 254 []) .outOfRange 256#9) ∧
      ∃ t, step (faulted (engine 254 []) .outOfRange 256#9) = .next t ∧ t.rs = .fault) :=
  ⟨⟨by decide, ⟨by decide, rfl⟩, next_of_after (by decide)⟩, ⟨by decide, ⟨by decide, rfl⟩, next_of_after (by decide)⟩⟩

/-- LDI, CALL, ADD to SHR (`≤ 253`), PRN, PUSH, POP, JMP (`≤ 254`) at the last address where they complete. -/
theorem witness_LdiLoadsItsImmediate : (engine 253 []).pc.toNat ≤ 253 := by decide

theorem witness_PrnEmitsItsRegister : (engine 254 []).pc.toNat ≤ 254 := by decide

/-- Completed and faulted. -/
theorem witness_BaseFrame :
    (∃ t, exec .hlt (engine 0 []) = .next t ∧ t.rs = .halted) ∧
    (∃ t, exec (.ldi 7#8 1#8) (engine 253 []) = .next t ∧ t.rs = .running) ∧
    (∃ t, exec (.ldi 8#8 1#8) (engine 253 []) = .next t ∧ t.rs = .fault) ∧
    (∃ t, exec (.prn 7#8) (engine 254 []) = .next t ∧ t.rs = .running) ∧
    (∃ t, exec (.prn 7#8) (engine 255 []) = .next t ∧ t.rs = .fault) :=
  ⟨next_of_after (by decide), next_of_after (by decide), next_of_after (by decide), next_of_after (by decide),
    next_of_after (by decide)⟩

/-- With SP = 0, where the decrement wraps. -/
theorem witness_PushStoresItsRegister :
    MemoryCanonical (before (engine 254 []) [(.r7, 0#8)]) ∧ (before (engine 254 []) [(.r7, 0#8)]).pc.toNat ≤ 254 := by
  decide

theorem witness_PopLoadsItsRegister : (engine 254 []).pc.toNat ≤ 254 ∧ Reg.r6 ≠ .r7 ∧ Reg.r7 = .r7 := by decide

/-- With SP = 0. -/
theorem witness_PushThenPopRestores :
    MemoryCanonical (before (engine 252 []) [(.r7, 0#8)]) ∧ (before (engine 252 []) [(.r7, 0#8)]).pc.toNat ≤ 252 ∧
      Reg.r0 ≠ .r7 ∧ Reg.r6 ≠ .r7 ∧
      ∃ t, exec (.push Reg.r0.index) (before (engine 252 []) [(.r7, 0#8)]) = .next t ∧ readReg t .r7 = 0xFF#8 :=
  ⟨by decide, by decide, by decide, by decide, next_of_after (by decide)⟩

theorem witness_StackFrame :
    (∃ t, exec (.push 0#8) (engine 254 []) = .next t ∧ t.rs = .running) ∧
    (∃ t, exec (.push 8#8) (engine 254 []) = .next t ∧ t.rs = .fault) ∧
    (∃ t, exec (.call 0#8) (engine 253 []) = .next t ∧ t.rs = .running) ∧
    (∃ t, exec (.call 0#8) (engine 254 []) = .next t ∧ t.rs = .fault) ∧
    (∃ t, exec (.pop 7#8) (engine 254 []) = .next t ∧ t.rs = .running) ∧
    (∃ t, exec (.pop 7#8) (engine 255 []) = .next t ∧ t.rs = .fault) ∧
    (∃ t, exec .ret (engine 255 []) = .next t ∧ t.rs = .running) :=
  ⟨next_of_after (by decide), next_of_after (by decide), next_of_after (by decide), next_of_after (by decide),
    next_of_after (by decide), next_of_after (by decide), next_of_after (by decide)⟩

theorem witness_CallPushesReturnAddress :
    MemoryCanonical (engine 253 [0x50#8, 7#8]) ∧ (engine 253 [0x50#8, 7#8]).pc.toNat ≤ 253 := by decide

theorem witness_CallAt254Faults : (engine 254 []).pc = 254#9 := by decide

theorem witness_JmpSetsPc : (engine 254 []).pc.toNat ≤ 254 := by decide

theorem witness_JeqAndJneBranchOnE :
    ((setFlags (engine 254 []) 1#8).fl.getLsbD 0 = true ∧ (setFlags (engine 254 []) 1#8).pc.toNat ≤ 254) ∧
      ((setFlags (engine 254 []) 4#8).fl.getLsbD 0 = false ∧ (setFlags (engine 254 []) 4#8).pc.toNat ≤ 254) := by
  decide

theorem witness_BranchFrame :
    (∃ t, exec (.jmp 8#8) (engine 254 []) = .next t ∧ t.rs = .fault) ∧
    (∃ t, exec (.jmp 7#8) (engine 254 []) = .next t ∧ t.rs = .running) ∧
    (∃ t, exec (.jeq 9#8) (engine 255 []) = .next t ∧ t.rs = .running) ∧
    (∃ t, exec (.jne 9#8) (engine 255 []) = .next t ∧ t.rs = .fault) :=
  ⟨next_of_after (by decide), next_of_after (by decide), next_of_after (by decide), next_of_after (by decide)⟩

/-- `u` is `t`: the RET follows at once. -/
theorem witness_CallThenRetReturns :
    MemoryCanonical (engine 253 []) ∧ (engine 253 []).pc.toNat ≤ 253 ∧
      ∃ t u : State, exec (.call Reg.r0.index) (engine 253 []) = .next t ∧ readReg u .r7 = readReg t .r7 ∧
        byteAt u (readReg t .r7).toNat = byteAt t (readReg t .r7).toNat := by
  obtain ⟨t, h⟩ := answers_of_after (f := fun t => t.rs) (v := .running)
    (o := exec (.call Reg.r0.index) (engine 253 [])) (by decide)
  exact ⟨by decide, by decide, t, t, h, rfl, rfl⟩

theorem witness_PcSettingClass :
    (engine 253 []).pc.toNat ≤ 253 ∧
    (∃ t, exec (.call Reg.r7.index) (engine 253 []) = .next t ∧ t.pc = 0xF3#9) ∧
    (∃ t, exec .ret (engine 255 []) = .next t ∧ t.pc = 0#9) ∧
    (engine 254 []).pc.toNat ≤ 254 ∧
    (∃ t, exec (.jmp Reg.r7.index) (engine 254 []) = .next t ∧ t.pc = 0xF4#9) ∧
    (∃ t, exec (.jeq Reg.r7.index) (setFlags (engine 254 []) 1#8) = .next t ∧ t.pc = 0xF4#9) ∧
    (∃ t, exec (.jne Reg.r7.index) (engine 254 []) = .next t ∧ t.pc = 0xF4#9) ∧
    (∃ t, exec (.jeq 8#8) (engine 255 []) = .next t ∧ t.pc = 257#9) ∧
    (∃ t, exec (.jne 8#8) (setFlags (engine 255 []) 1#8) = .next t ∧ t.pc = 257#9) :=
  ⟨by decide, next_of_after (by decide), next_of_after (by decide), by decide, next_of_after (by decide),
    next_of_after (by decide), next_of_after (by decide), next_of_after (by decide), next_of_after (by decide)⟩

/-- A format Z, R, RI and RR instruction that completes, at the last address, HLT at the bound, and one that
raises. -/
theorem witness_GenericPcAdvance :
    (Instr.mnemonic .hlt ∉ [.call, .ret, .jmp, .jeq, .jne] ∧
      ∃ t, exec .hlt (engine 255 []) = .next t ∧ t.pc = 256#9) ∧
    (Instr.mnemonic (.pop 0#8) ∉ [.call, .ret, .jmp, .jeq, .jne] ∧
      ∃ t, exec (.pop 0#8) (engine 254 []) = .next t ∧ t.pc = 256#9) ∧
    (Instr.mnemonic (.ldi 0#8 0#8) ∉ [.call, .ret, .jmp, .jeq, .jne] ∧
      ∃ t, exec (.ldi 0#8 0#8) (engine 253 []) = .next t ∧ t.pc = 256#9) ∧
    (Instr.mnemonic (.shr 0#8 0#8) ∉ [.call, .ret, .jmp, .jeq, .jne] ∧
      ∃ t, exec (.shr 0#8 0#8) (engine 253 []) = .next t ∧ t.pc = 256#9) ∧
    ((engine 510 []).pc.toNat + 1 + (Instr.operandBytes .hlt).length < 512 ∧
      ∃ t, exec .hlt (engine 510 []) = .next t ∧ t.pc = 511#9) ∧
    (∃ t, exec (.div 0#8 0#8) (engine 253 []) = .next t ∧ t.pc = 253#9) :=
  ⟨⟨by decide, next_of_after (by decide)⟩, ⟨by decide, next_of_after (by decide)⟩,
    ⟨by decide, next_of_after (by decide)⟩, ⟨by decide, next_of_after (by decide)⟩,
    ⟨by decide, next_of_after (by decide)⟩, next_of_after (by decide)⟩

theorem witness_AddSubMulWrap : (engine 253 []).pc.toNat ≤ 253 := by decide

theorem witness_DivModQuotientRemainder :
    (engine 253 []).pc.toNat ≤ 253 ∧ readReg (engine 253 []) .r7 ≠ 0#8 := by decide

theorem witness_DivModByZeroFaults : (engine 253 []).pc.toNat ≤ 253 ∧ readReg (engine 253 []) .r0 = 0#8 := by decide

theorem witness_CmpSetsExactlyOneFlag : (engine 253 []).pc.toNat ≤ 253 := by decide

theorem witness_AndOrXorBitwise : (engine 253 []).pc.toNat ≤ 253 ∧ 7 < 8 := by decide

/-- A count of exactly 8. -/
theorem witness_ShiftsByTheWholeCount :
    (before (engine 253 []) [(.r1, 8#8)]).pc.toNat ≤ 253 ∧
      8 ≤ (readReg (before (engine 253 []) [(.r1, 8#8)]) .r1).toNat := by decide

theorem witness_AluFrame :
    (∃ t, exec (.sub 7#8 0#8) (engine 253 []) = .next t ∧ t.rs = .running) ∧
    (∃ t, exec (.mod 7#8 0#8) (engine 253 []) = .next t ∧ t.rs = .fault) ∧
    (∃ t, exec (.cmp 7#8 0#8) (engine 253 []) = .next t ∧ t.rs = .running) ∧
    (∃ t, exec (.cmp 7#8 8#8) (engine 253 []) = .next t ∧ t.rs = .fault) :=
  ⟨next_of_after (by decide), next_of_after (by decide), next_of_after (by decide), next_of_after (by decide)⟩

theorem witness_OperandReadPastMemoryFaults :
    ((setFlags (engine 255 []) 1#8).pc = 255#9 ∧ (setFlags (engine 255 []) 1#8).fl.getLsbD 0 = true) ∧
      ((engine 255 []).pc = 255#9 ∧ (engine 255 []).fl.getLsbD 0 = false) ∧ (engine 254 []).pc = 254#9 := by decide

theorem witness_InvalidRegisterFaults :
    (8 ≤ (8#8).toNat ∧ (engine 254 []).pc.toNat ≤ 254 ∧ (engine 254 []).fl.getLsbD 0 = false ∧
      (setFlags (engine 254 []) 1#8).fl.getLsbD 0 = true) ∧
      (8 ≤ (0xFF#8).toNat ∧ (engine 253 []).pc.toNat ≤ 253) ∧ ((7#8).toNat ≤ 7 ∧ 8 ≤ (8#8).toNat) := by decide

theorem witness_LdiThenPrnOutputsTheValue :
    (engine 251 []).pc.toNat ≤ 251 ∧ ∃ t, exec (.ldi Reg.r7.index 9#8) (engine 251 []) = .next t ∧ t.pc = 254#9 :=
  ⟨by decide, next_of_after (by decide)⟩

/-- Equal and unequal registers. -/
theorem witness_CmpThenBranchIffEqual :
    (engine 251 []).pc.toNat ≤ 251 ∧
    (readReg (engine 251 []) .r0 = readReg (engine 251 []) .r1 ∧
      ∃ t, exec (.cmp Reg.r0.index Reg.r1.index) (engine 251 []) = .next t ∧ t.fl = 1#8) ∧
    (readReg (engine 251 []) .r0 ≠ readReg (engine 251 []) .r7 ∧
      ∃ t, exec (.cmp Reg.r0.index Reg.r7.index) (engine 251 []) = .next t ∧ t.fl = 4#8) :=
  ⟨by decide, ⟨by decide, next_of_after (by decide)⟩, ⟨by decide, next_of_after (by decide)⟩⟩

theorem witness_OnlyStackInstructionsTouchMemory :
    Instr.mnemonic (.jmp 7#8) ∉ [.push, .pop, .call, .ret] ∧
      ∃ t, exec (.jmp 7#8) (engine 254 []) = .next t ∧ t.pc = 0xF4#9 :=
  ⟨by decide, next_of_after (by decide)⟩

/-- FL = 00000110 has the E of FL = 0; JNE is taken, CMP completes, CMP raises. -/
theorem witness_NoInstructionReadsLOrG :
    (6#8 : Byte).getLsbD 0 = (engine 254 []).fl.getLsbD 0 ∧
    (Instr.mnemonic (.jne 7#8) ≠ .cmp ∧ ∃ t, exec (.jne 7#8) (engine 254 []) = .next t ∧ t.pc = 0xF4#9) ∧
    (Instr.mnemonic (.cmp 0#8 0#8) = .cmp ∧ ∃ t, exec (.cmp 0#8 0#8) (engine 253 []) = .next t ∧ t.fl = 1#8) ∧
    (∃ t, exec (.cmp 0#8 0#8) (engine 254 []) = .next t ∧ t.rs = .fault) :=
  ⟨by decide, ⟨by decide, next_of_after (by decide)⟩, ⟨by decide, next_of_after (by decide)⟩,
    next_of_after (by decide)⟩

end Sys2Proof.Tests
end

/-!
PROOFS. The statements of spec/10_state.md: reset and the STATUS port, the invariants of FL, PC, RS, CAUSE and
INFO, and that no instruction reads L or G.
-/

namespace Sys2Proof.Machine

/-! ### Everything a step can do -/

/-- Everything one step can do: nothing, end the run, raise UnknownOpcode, or run an instruction at a PC inside
memory, which raises one of its faults or completes (R70 to R74). -/
inductive StepEffect (s : State) : State → Prop
  | stopped (hr : s.rs ≠ .running) : StepEffect s s
  | ended (hr : s.rs = .running) (hp : 256 ≤ s.pc.toNat) : StepEffect s (halt s .ended)
  | unknown (hr : s.rs = .running) (hp : s.pc.toNat < 256)
      (hm : mnemonicOf (Memory.read s.mem s.pc.toNat) = none) :
      StepEffect s (takeFault s (unknownOpcode (Memory.read s.mem s.pc.toNat)))
  | raised {t : State} (hr : s.rs = .running) (hp : s.pc.toNat < 256) (h : RaisesFault s t) : StepEffect s t
  | completed {t : State} (i : Instr) (hr : s.rs = .running) (hp : s.pc.toNat < 256) (h : Completes i s t) :
      StepEffect s t

theorem stepEffect_of_step {s t : State} (h : step s = .next t) : StepEffect s t := by
  rcases step_cases s with ⟨hr, e⟩ | ⟨hr, hp, e⟩ | ⟨hr, hp, hm, e⟩ | ⟨i, _, hr, hp, _, e⟩ <;> rw [e] at h
  · exact next_inj h ▸ .stopped hr
  · exact next_inj h ▸ .ended hr hp
  · exact next_inj h ▸ .unknown hr hp hm
  · rcases exec_cases h with hf | hc
    · exact .raised hr hp hf
    · exact .completed i hr hp hc

/-! ### FL -/

theorem RaisesFault.fl_eq {s t : State} (h : RaisesFault s t) : t.fl = s.fl := by
  obtain ⟨c, info, _, rfl⟩ := h.eq_takeFault
  rfl

theorem Completes.fl_eq {i : Instr} {s t : State} (h : Completes i s t) (hi : i.mnemonic ≠ .cmp) :
    t.fl = s.fl := by
  cases h
  case cmp => exact absurd rfl hi
  all_goals rfl

/-- R17: only CMP writes FL. -/
theorem exec_fl_eq {i : Instr} {s t : State} (hi : i.mnemonic ≠ .cmp) (h : exec i s = .next t) :
    t.fl = s.fl :=
  (exec_cases h).elim RaisesFault.fl_eq (Completes.fl_eq · hi)

/-- R130: a comparison sets exactly one of E, L, G. -/
theorem flagsByte_compareFlags (va vb : Byte) :
    flagsByte (compareFlags va vb) = 0x01#8 ∨ flagsByte (compareFlags va vb) = 0x02#8 ∨
      flagsByte (compareFlags va vb) = 0x04#8 := by
  unfold compareFlags
  split
  · exact .inl rfl
  · split
    · exact .inr (.inr rfl)
    · exact .inr (.inl rfl)

theorem Completes.flagsExclusive {i : Instr} {s t : State} (h : Completes i s t) (hs : FlagsExclusive s) :
    FlagsExclusive t := by
  cases h
  case cmp => exact .inr (flagsByte_compareFlags _ _)
  all_goals exact hs

/-- Settles O27: a fault and every instruction but CMP keep FL, and CMP leaves one of the three single flags. -/
theorem stepKeepsFlagsExclusive : Obligations.StepKeepsFlagsExclusive := by
  intro s t hs h
  cases stepEffect_of_step h with
  | stopped => exact hs
  | ended => exact hs
  | unknown => exact hs
  | raised _ _ hf => rw [FlagsExclusive, hf.fl_eq]; exact hs
  | completed _ _ _ hc => exact hc.flagsExclusive hs

/-! ### PC -/

theorem advance_pc_toNat {s : State} {n : Nat} (h : s.pc.toNat + n < 512) :
    (advance s n).pc.toNat = s.pc.toNat + n := by
  simp only [advance_pc, BitVec.toNat_add, BitVec.toNat_ofNat]
  omega

theorem pcReachable_advance {s : State} {n : Nat} (h : s.pc.toNat + n ≤ 257) : PcReachable (advance s n) := by
  rw [PcReachable, advance_pc_toNat (by omega)]
  exact h

theorem pcReachable_jumpTo (s : State) (v : Byte) : PcReachable (jumpTo s v) := by
  have := v.isLt
  rw [PcReachable, jumpTo_pc, zext9_toNat]
  omega

/-- The largest PC an instruction can leave is 257, after an untaken JEQ or JNE at 255 (R14). -/
theorem Completes.pcReachable {i : Instr} {s t : State} (h : Completes i s t) (hp : s.pc.toNat < 256) :
    PcReachable t := by
  cases h
  case hlt => exact pcReachable_advance (s := s) (by omega)
  case ret => exact pcReachable_jumpTo s _
  case call | jmp | jeqTaken | jneTaken => exact pcReachable_jumpTo _ _
  case jeqUntaken | jneUntaken => exact pcReachable_advance (by omega)
  all_goals exact pcReachable_advance (by simp; omega)

/-! ### RS, CAUSE and INFO -/

@[simp] theorem outOfRange_cause (addr : Int) : (outOfRange addr).cause = .outOfRange := rfl

@[simp] theorem invalidRegister_cause (b : Byte) : (invalidRegister b).cause = .invalidRegister := rfl

@[simp] theorem invalidRegister_info (b : Byte) : (invalidRegister b).info = zext9 b := rfl

@[simp] theorem divisionByZero_cause (b : Byte) : (divisionByZero b).cause = .divisionByZero := rfl

@[simp] theorem divisionByZero_info (b : Byte) : (divisionByZero b).info = zext9 b := rfl

@[simp] theorem unknownOpcode_cause (op : Byte) : (unknownOpcode op).cause = .unknownOpcode := rfl

theorem StatusConsistent.of_kept {s t : State} (hs : StatusConsistent s) (hr : s.rs ≠ .fault)
    (hr' : t.rs ≠ .fault) (hc : t.cause = s.cause) (hi : t.info = s.info) : StatusConsistent t := by
  obtain ⟨hnone, hfits⟩ := hs
  rw [StatusConsistent, hc, hi]
  exact ⟨iff_of_true (hnone.mpr hr) hr', hfits⟩

theorem statusConsistent_takeFault (s : State) {tr : Trap} (hc : tr.cause ≠ .none)
    (hi : infoFits tr.cause tr.info) : StatusConsistent (takeFault s tr) :=
  ⟨iff_of_false hc (by simp), hi⟩

/-- The first operand byte that lies past memory is at 256, the one address INFO then holds (R161). -/
theorem outOfRange_info {s : State} {k : Nat} (h : s.pc.toNat + k = 256) :
    (outOfRange (operandAddress s k)).info = 256#9 := by
  simp only [outOfRange, operandAddress, h]
  rfl

theorem RaisesFault.statusConsistent {s t : State} (h : RaisesFault s t) (hp : s.pc.toNat < 256) :
    StatusConsistent t := by
  rcases h with ⟨k, hk, h, h1, rfl⟩ | ⟨b, hb, rfl⟩ | ⟨r, rfl⟩
  · exact statusConsistent_takeFault s (by simp) (outOfRange_info (by omega))
  · refine statusConsistent_takeFault s (by simp) ?_
    have := b.isLt
    simp only [invalidRegister_cause, invalidRegister_info, infoFits, zext9_toNat]
    omega
  · refine statusConsistent_takeFault s (by simp) ?_
    simp only [divisionByZero_cause, divisionByZero_info, infoFits, zext9_toNat]
    exact index_le_seven r

theorem Completes.statusConsistent {i : Instr} {s t : State} (h : Completes i s t) (hr : s.rs = .running)
    (hs : StatusConsistent s) : StatusConsistent t := by
  cases h
  all_goals exact hs.of_kept (by simp [hr]) (by simp [hr]) rfl rfl

/-- Settles O28: each effect of a step keeps PC in 0..257, and leaves RS, CAUSE and INFO as they were or those of
one of its four faults. -/
theorem stepKeepsPcAndStatus : Obligations.StepKeepsPcAndStatus := by
  intro s t hpc hs h
  cases stepEffect_of_step h with
  | stopped => exact ⟨hpc, hs⟩
  | ended hr => exact ⟨hpc, hs.of_kept (by simp [hr]) (by simp) rfl rfl⟩
  | unknown _ _ hm => exact ⟨hpc, statusConsistent_takeFault s (by simp) ⟨_, rfl, hm⟩⟩
  | raised _ hp hf =>
    refine ⟨?_, hf.statusConsistent hp⟩
    obtain ⟨c, info, _, rfl⟩ := hf.eq_takeFault
    exact hpc
  | completed i hr hp hc => exact ⟨hc.pcReachable hp, hc.statusConsistent hr hs⟩

/-! ### No instruction reads L or G -/

/-- An instruction whose effect commutes with replacing FL does the same in the state with FL replaced. -/
theorem conclude_setFlags {s t : State} {f : Byte} {e e' : Except Trap State}
    (h : conclude s e = .next t) (he : e' = (setFlags · f) <$> e) :
    conclude (setFlags s f) e' = .next (setFlags t f) := by
  subst he
  cases e with
  | ok u => rw [← next_inj h]; rfl
  | error tr => rw [← next_inj h]; rfl

/-- JMP, JEQ and JNE look at E alone (R115). -/
theorem branchOnReg_setFlags (op : BranchOp) (a : Byte) {s : State} {f : Byte} (hE : flagE f = flagE s.fl) :
    branchOnReg op a (setFlags s f) = (setFlags · f) <$> branchOnReg op a s := by
  simp only [branchOnReg, setFlags_fl, hE]
  split
  · rw [map_bind]; rfl
  · rfl

theorem execPush_setFlags {a f : Byte} {s t : State} (h : execPush a s = .next t) :
    execPush a (setFlags s f) = .next (setFlags t f) := by
  refine conclude_setFlags h ?_
  simp only [storeAtSp_decSp, ok_bind, map_bind]
  rfl

theorem execPop_setFlags {a f : Byte} {s t : State} (h : execPop a s = .next t) :
    execPop a (setFlags s f) = .next (setFlags t f) :=
  conclude_setFlags h (by simp only [map_bind]; rfl)

theorem execCall_setFlags {a f : Byte} {s t : State} (h : execCall a s = .next t) :
    execCall a (setFlags s f) = .next (setFlags t f) := by
  refine conclude_setFlags h ?_
  simp only [storeAtSp_decSp, ok_bind, map_bind]
  rfl

/-- The ALU's answer to every operation but CMP is committed without FL. -/
theorem aluCommit_setFlags {op : AluOp} (hop : op ≠ .cmp) (s : State) (f : Byte) (ra rb : Reg) (va vb : Byte) :
    aluCommit (setFlags s f) op.select ra rb (aluApply op.select va vb) =
      (setFlags · f) <$> aluCommit s op.select ra rb (aluApply op.select va vb) := by
  rw [aluApply_select]
  rcases aluCompute_cases op va vb with ⟨v, _, _, e⟩ | ⟨rfl, _⟩ | ⟨_, _, e⟩
  · rw [e]; rfl
  · exact absurd rfl hop
  · rw [e]; rfl

theorem aluInstr_setFlags {op : AluOp} (hop : op ≠ .cmp) {a b f : Byte} {s t : State}
    (h : aluInstr op a b s = .next t) : aluInstr op a b (setFlags s f) = .next (setFlags t f) := by
  refine conclude_setFlags h ?_
  simp only [map_bind]
  refine congrArg (twoRegs s a b >>= ·) (funext fun r => ?_)
  simp only [readReg_setFlags, aluCommit_setFlags hop, bind_map_left]
  rfl

/-- R17: an instruction other than CMP does the same under any FL with the same E, and leaves that FL. -/
theorem exec_setFlags {i : Instr} (hi : i.mnemonic ≠ .cmp) {s t : State} {f : Byte}
    (hE : flagE f = flagE s.fl) (h : exec i s = .next t) : exec i (setFlags s f) = .next (setFlags t f) := by
  cases i <;> simp only [exec] at h ⊢
  case hlt => exact conclude_setFlags h rfl
  case ldi | prn | ret => exact conclude_setFlags h (by rw [map_bind]; rfl)
  case push => exact execPush_setFlags h
  case pop => exact execPop_setFlags h
  case call => exact execCall_setFlags h
  case jmp | jeq | jne => exact conclude_setFlags h (branchOnReg_setFlags _ _ hE)
  case cmp => exact absurd rfl hi
  all_goals exact aluInstr_setFlags (h := h) (by decide)

theorem raised_takeFault (s : State) {tr : Trap} (h : tr.cause ≠ .none) : Raised s (takeFault s tr) :=
  ⟨tr.cause, tr.info, h, rfl⟩

theorem twoRegs_error_cause {s : State} {a b : Byte} {tr : Trap} (h : twoRegs s a b = .error tr) :
    tr.cause ≠ .none := by
  rcases twoRegs_cases s a b with ⟨_, _, _, _, _, e⟩ | ⟨_, e⟩ | ⟨_, _, e⟩ | ⟨_, _, e⟩ | ⟨_, _, _, e⟩ <;>
    cases e.symm.trans h <;> simp

theorem execCmp_of_twoRegs_error {s : State} {a b : Byte} {tr : Trap} (h : twoRegs s a b = .error tr) :
    execCmp a b s = .next (takeFault s tr) := by
  simp only [execCmp, aluInstr, h, error_bind, conclude_error]

theorem execCmp_of_twoRegs_ok {s : State} {a b : Byte} {r : Reg × Reg} (h : twoRegs s a b = .ok r) :
    execCmp a b s =
      .next (advance (setFlags s (flagsByte (compareFlags (readReg s r.1) (readReg s r.2)))) 3) := by
  simp only [execCmp, aluInstr, h, ok_bind, aluApply_select, aluCompute, aluCommit_compare, conclude_pure]

/-- CMP ignores the FL it finds: it raises and leaves it, or completes and overwrites it whole (R130). -/
theorem execCmp_setFlags (a b f : Byte) {s t : State} (h : execCmp a b s = .next t) :
    (Raised s t ∧ execCmp a b (setFlags s f) = .next (setFlags t f)) ∨
      execCmp a b (setFlags s f) = .next t := by
  cases hr : twoRegs s a b with
  | error tr =>
    rw [execCmp_of_twoRegs_error hr] at h
    rw [← next_inj h]
    exact .inl ⟨raised_takeFault s (twoRegs_error_cause hr), execCmp_of_twoRegs_error (s := setFlags s f) hr⟩
  | ok r =>
    rw [execCmp_of_twoRegs_ok hr] at h
    rw [← next_inj h]
    exact .inr (execCmp_of_twoRegs_ok (s := setFlags s f) hr)

/-- Settles O60: replacing FL under the same E commutes with every instruction but CMP, and CMP overwrites FL
unless it raises. -/
theorem noInstructionReadsLOrG : Obligations.NoInstructionReadsLOrG := by
  intro i s t f hE h
  refine ⟨fun hi => ⟨exec_fl_eq hi h, exec_setFlags hi hE h⟩, fun hi => ?_⟩
  cases i with
  | cmp a b => exact execCmp_setFlags a b f h
  | _ => cases hi

/-! ### Reset and the STATUS port -/

/-- Settles O22: each field of the reset state has the value R22 gives it, and no cell is listed. -/
theorem resetValues : Obligations.ResetValues := by
  refine ⟨fun s => ⟨rfl, rfl, fun r hr => ?_, rfl, rfl, rfl, rfl, rfl, rfl, rfl⟩, fun _ => rfl⟩
  cases r
  case r7 => exact absurd rfl hr
  all_goals rfl

/-- Settles O24: the codes and the port's fields are as the tables of R18 and R146 list them. -/
theorem statusPortCodes : Obligations.StatusPortCodes := ⟨rfl, rfl, fun _ => rfl⟩

/-- The reset state meets the invariants with any canonical memory. -/
theorem inv_reset_with_mem {m : Memory} (hm : Memory.wf m = true) : Inv { State.reset with mem := m } where
  memory := hm
  flags := .inl rfl
  pc := Nat.zero_le _
  status := ⟨iff_of_true rfl (nofun), rfl⟩

/-- Settles O29: a boot is the reset state with the image placed in empty memory, which is canonical. -/
theorem resetMeetsTheInvariants : Obligations.ResetMeetsTheInvariants :=
  ⟨inv_reset_with_mem Memory.wf_reset,
    fun _ image => inv_reset_with_mem (Memory.wf_place [] 0 image Memory.wf_reset)⟩

end Sys2Proof.Machine

/-!
PROOFS. The statements of spec/20_memory.md: the contracts of MemRead and MemWrite, the canonical form of MEM and
its invariance, which instructions touch memory data, and that a fetch sees what PUSH and CALL stored.
-/

namespace Sys2Proof.Machine

/-! ### The contracts of MemRead and MemWrite -/

theorem inRange_eq_false_iff (addr : Int) : inRange addr = false ↔ addr < 0 ∨ 256 ≤ addr := by
  rw [← Bool.not_eq_true, inRange_iff]
  omega

/-- Settles O8: the two ranges are the two answers of `memRead`, and an error passes every continuation. -/
theorem memReadContract : Obligations.MemReadContract := by
  intro s addr
  refine ⟨fun h => memRead_inRange s ((inRange_iff addr).mpr h), fun h => ?_⟩
  have herr : memRead s addr = .error (outOfRange addr) :=
    memRead_outOfRange s ((inRange_eq_false_iff addr).mpr h)
  exact ⟨outOfRange addr, herr, rfl, rfl, fun k => by rw [herr]; rfl⟩

/-- Settles O9: the two ranges are the two answers of `memWrite`, and a read after the write of canonical memory
sees the written byte at its address alone. -/
theorem memWriteContract : Obligations.MemWriteContract := by
  intro s addr v hs
  refine ⟨fun h => ?_, fun h => memWrite_outOfRange s v ((inRange_eq_false_iff addr).mpr h)⟩
  refine ⟨_, memWrite_inRange s v ((inRange_iff addr).mpr h), ?_, fun a ha => ?_, rfl⟩
  · exact Memory.read_write_same s.mem addr.toNat v 0 hs
  · exact Memory.read_write_ne s.mem addr.toNat a v (by omega)

/-! ### The canonical form determines the data -/

theorem Memory.wfFrom_cons {lo k : Nat} {b : Byte} {rest : Memory} :
    Memory.wfFrom lo ((k, b) :: rest) = true ↔
      lo ≤ k ∧ k < 256 ∧ b ≠ Config.unloadedByte ∧ Memory.wfFrom (k + 1) rest = true := by
  simp only [Memory.wfFrom, Bool.and_eq_true, decide_eq_true_eq, and_assoc]
  exact Iff.rfl

theorem Memory.read_cons_same (k : Nat) (b : Byte) (rest : Memory) :
    Memory.read ((k, b) :: rest) k = b :=
  if_pos rfl

theorem Memory.read_cons_ne {k a : Nat} (b : Byte) (rest : Memory) (h : k ≠ a) :
    Memory.read ((k, b) :: rest) a = Memory.read rest a :=
  if_neg h

/-- The first address at which a canonical memory is listed is at most any address that reads as something else
than an unlisted one. -/
theorem Memory.head_le_of_read_ne {lo k a : Nat} {b : Byte} {rest : Memory}
    (h : Memory.wfFrom lo ((k, b) :: rest) = true)
    (ha : Memory.read ((k, b) :: rest) a ≠ Config.unloadedByte) : k ≤ a := by
  obtain ⟨-, hk, hb, hrest⟩ := Memory.wfFrom_cons.mp h
  exact Nat.le_of_not_lt fun hlt => ha (Memory.read_below (Memory.wfFrom_cons.mpr ⟨le_rfl, hk, hb, hrest⟩) hlt)

/-- A canonical memory with a listed cell reads differently from the empty one. -/
theorem Memory.exists_read_ne_of_cons {lo k : Nat} {b : Byte} {rest : Memory}
    (h : Memory.wfFrom lo ((k, b) :: rest) = true) :
    ∃ a < 256, Memory.read ((k, b) :: rest) a ≠ Config.unloadedByte := by
  obtain ⟨-, hk, hb, -⟩ := Memory.wfFrom_cons.mp h
  exact ⟨k, hk, by rwa [Memory.read_cons_same]⟩

theorem Memory.eq_of_read_eq {lo : Nat} {m n : Memory} (hm : Memory.wfFrom lo m = true)
    (hn : Memory.wfFrom lo n = true) (h : ∀ a < 256, Memory.read m a = Memory.read n a) : m = n := by
  induction m generalizing lo n with
  | nil =>
    cases n with
    | nil => rfl
    | cons c rest =>
      obtain ⟨a, ha, hne⟩ := Memory.exists_read_ne_of_cons hn
      exact absurd (h a ha).symm hne
  | cons c rest ih =>
    cases n with
    | nil =>
      obtain ⟨a, ha, hne⟩ := Memory.exists_read_ne_of_cons hm
      exact absurd (h a ha) hne
    | cons d rest' =>
      obtain ⟨k, b⟩ := c
      obtain ⟨k', b'⟩ := d
      obtain ⟨-, hk, hb, hrest⟩ := Memory.wfFrom_cons.mp hm
      obtain ⟨-, hk', hb', hrest'⟩ := Memory.wfFrom_cons.mp hn
      have hkk' : k = k' := by
        refine Nat.le_antisymm (Memory.head_le_of_read_ne hm ?_) (Memory.head_le_of_read_ne hn ?_)
        · rwa [h k' hk', Memory.read_cons_same]
        · rwa [← h k hk, Memory.read_cons_same]
      subst hkk'
      have hbb' : b = b' := by simpa only [Memory.read_cons_same] using h k hk
      have hreads : ∀ a < 256, Memory.read rest a = Memory.read rest' a := by
        intro a ha
        by_cases hle : a ≤ k
        · have hlt : a < k + 1 := Nat.lt_succ_of_le hle
          rw [Memory.read_below hrest hlt, Memory.read_below hrest' hlt]
        · have hne : k ≠ a := by omega
          rw [← Memory.read_cons_ne b rest hne, ← Memory.read_cons_ne b' rest' hne]
          exact h a ha
      rw [hbb', ih hrest hrest' hreads]

/-- Settles O10: along both lists the first listed address and its byte agree, and so do the reads of the rest. -/
theorem canonicalMemoryIsItsBytes : Obligations.CanonicalMemoryIsItsBytes :=
  fun _ _ hm hn h => Memory.eq_of_read_eq hm hn h

/-! ### The invariant of memory -/

theorem RaisesFault.mem_eq {s t : State} (h : RaisesFault s t) : t.mem = s.mem := by
  obtain ⟨c, info, _, rfl⟩ := h.eq_takeFault
  rfl

/-- R104: only PUSH and CALL store. -/
theorem Completes.mem_eq {i : Instr} {s t : State} (h : Completes i s t) (hpush : i.mnemonic ≠ .push)
    (hcall : i.mnemonic ≠ .call) : t.mem = s.mem := by
  cases h
  case push => exact absurd rfl hpush
  case call => exact absurd rfl hcall
  all_goals rfl

/-- The address of a push is a byte, so that its store keeps the canonical form for every SP (R35). -/
theorem memoryCanonical_pushed {s : State} (hs : MemoryCanonical s) (v : Byte) :
    MemoryCanonical (pushed s v) :=
  Memory.wf_write v hs (readReg s sp - 1#8).isLt

theorem Completes.memoryCanonical {i : Instr} {s t : State} (h : Completes i s t) (hs : MemoryCanonical s) :
    MemoryCanonical t := by
  cases h
  case push => exact memoryCanonical_pushed hs _
  case call => exact memoryCanonical_pushed hs _
  all_goals exact hs

/-- Settles O26: a step that stores does so through one push, and every other step keeps memory. -/
theorem stepKeepsMemoryCanonical : Obligations.StepKeepsMemoryCanonical := by
  intro s t hs h
  cases stepEffect_of_step h with
  | stopped => exact hs
  | ended => exact hs
  | unknown => exact hs
  | raised _ _ hf => rw [MemoryCanonical, hf.mem_eq]; exact hs
  | completed _ _ _ hc => exact hc.memoryCanonical hs

/-! ### Which instructions touch memory data -/

/-- The state with another memory in place of its own. -/
def withMem (s : State) (m : Memory) : State := { s with mem := m }

/-- An instruction whose effect commutes with a change of the state that fault entry commutes with does the same in
the changed state. -/
theorem conclude_map {s t : State} {e e' : Except Trap State} (f : State → State)
    (hf : ∀ tr, takeFault (f s) tr = f (takeFault s tr)) (h : conclude s e = .next t) (he : e' = f <$> e) :
    conclude (f s) e' = .next (f t) := by
  subst he
  cases e with
  | ok u => rw [← next_inj h]; rfl
  | error tr => rw [← next_inj h, ← hf tr]; rfl

theorem conclude_withMem {s t : State} {m : Memory} {e e' : Except Trap State}
    (h : conclude s e = .next t) (he : e' = (withMem · m) <$> e) :
    conclude (withMem s m) e' = .next (withMem t m) :=
  conclude_map (withMem · m) (fun _ => rfl) h he

theorem branchOnReg_withMem (op : BranchOp) (a : Byte) (s : State) (m : Memory) :
    branchOnReg op a (withMem s m) = (withMem · m) <$> branchOnReg op a s := by
  cases hb : branchTaken op (flagE s.fl) with
  | false => rw [branchOnReg_untaken a hb]; exact branchOnReg_untaken (s := withMem s m) a hb
  | true => simp only [branchOnReg, hb, if_true, map_bind, withMem]; rfl

theorem aluCommit_withMem (s : State) (m : Memory) (sel : Byte) (ra rb : Reg) (o : AluOut) :
    aluCommit (withMem s m) sel ra rb o = (withMem · m) <$> aluCommit s sel ra rb o := by
  cases o <;> rfl

theorem aluInstr_withMem {op : AluOp} {a b : Byte} {s t : State} {m : Memory}
    (h : aluInstr op a b s = .next t) : aluInstr op a b (withMem s m) = .next (withMem t m) := by
  refine conclude_withMem h ?_
  simp only [aluCommit_withMem, map_bind, bind_map_left]
  rfl

/-- R34, R104: an instruction outside PUSH, POP, CALL and RET does the same with any memory, and leaves that
memory. -/
theorem exec_withMem {i : Instr} (hi : i.mnemonic ∉ [.push, .pop, .call, .ret]) {s t : State} (m : Memory)
    (h : exec i s = .next t) : exec i (withMem s m) = .next (withMem t m) := by
  cases i <;> simp only [exec] at h ⊢
  case hlt => exact conclude_withMem h rfl
  case ldi | prn => exact conclude_withMem h (by rw [map_bind]; rfl)
  case push | pop | call | ret => exact absurd (by simp [Instr.mnemonic]) hi
  case jmp | jeq | jne => exact conclude_withMem h (branchOnReg_withMem _ _ _ _)
  all_goals exact aluInstr_withMem h

/-- Settles O59: only PUSH and CALL store, and replacing memory commutes with every instruction outside the
four. -/
theorem onlyStackInstructionsTouchMemory : Obligations.OnlyStackInstructionsTouchMemory := by
  intro i s t m hi h
  refine ⟨?_, exec_withMem hi m h⟩
  rcases exec_cases h with hf | hc
  · exact hf.mem_eq
  · exact hc.mem_eq (fun e => hi (by simp [e])) (fun e => hi (by simp [e]))

/-! ### A fetch sees the stored byte -/

theorem fetchWindow_head? (s : State) (h : s.pc.toNat < 256) :
    (fetchWindow s).head? = some (Memory.read s.mem s.pc.toNat) :=
  congrArg some (windowByte_inRange s (k := 0) h)

/-- R44: once a byte is pushed, a fetch of the decremented SP from that memory sees it. -/
theorem fetchWindow_head?_of_pushed {s u : State} {v : Byte} (hs : MemoryCanonical s)
    (hmem : u.mem = (pushed s v).mem) (hpc : u.pc.toNat = (readReg s sp - 1#8).toNat) :
    (fetchWindow u).head? = some v := by
  rw [fetchWindow_head? u (hpc ▸ (readReg s sp - 1#8).isLt), hmem, pushed_mem, hpc]
  exact congrArg some (Memory.read_write_same s.mem _ v 0 hs)

/-- Settles O11: a completed PUSH or CALL leaves the memory of one push, of the register read after SP was
decremented or of the return address. -/
theorem fetchSeesStoredByte : Obligations.FetchSeesStoredByte := by
  intro s u r v hs
  refine ⟨fun hp t h hv hmem hpc => ?_, fun hp t h hv hmem hpc => ?_⟩
  · have ht := next_inj ((execPush_ok s r (by omega)).symm.trans h)
    have hread : readReg (decSp s) r = v := (readReg_decSp s r).trans hv.symm
    refine fetchWindow_head?_of_pushed hs ?_ hpc
    rw [hmem, ← ht, advance_mem, hread]
  · have ht := next_inj ((execCall_ok s r (by omega)).symm.trans h)
    have hret : BitVec.ofNat 8 (s.pc.toNat + 2) = v := by rw [← hv, BitVec.ofNat_toNat, BitVec.setWidth_eq]
    refine fetchWindow_head?_of_pushed hs ?_ hpc
    rw [hmem, ← ht, jumpTo_mem, hret]

end Sys2Proof.Machine

/-!
PROOFS. The statements of spec/30_encoding.md: the decoder and the encoder are inverse to each other, the fields of
the opcode byte, the unlisted bytes, and the register operand byte.
-/

namespace Sys2Proof

/-! ### The bytes an operand format takes -/

theorem takeOperands_zero {j i : Instr} {bytes rest : List Byte} :
    takeOperands (.zero j) bytes = some (i, rest) ↔ i = j ∧ bytes = rest := by
  simp only [takeOperands, Option.some.injEq, Prod.mk.injEq, eq_comm]

theorem takeOperands_one {make : Byte → Instr} {i : Instr} {bytes rest : List Byte} :
    takeOperands (.one make) bytes = some (i, rest) ↔ ∃ a, i = make a ∧ bytes = a :: rest := by
  cases bytes <;> simp [takeOperands, eq_comm]

theorem takeOperands_two {make : Byte → Byte → Instr} {i : Instr} {bytes rest : List Byte} :
    takeOperands (.two make) bytes = some (i, rest) ↔ ∃ a b, i = make a b ∧ bytes = a :: b :: rest := by
  match bytes with
  | [] | [_] => simp [takeOperands]
  | _ :: _ :: _ => simp [takeOperands, eq_comm]

/-- What a row of the table makes is an instruction of that row, and the bytes it took are its operand bytes. -/
theorem takeOperands_shape {m : Mnemonic} {i : Instr} {bytes rest : List Byte}
    (h : takeOperands m.shape bytes = some (i, rest)) : i.mnemonic = m ∧ bytes = i.operandBytes ++ rest := by
  cases m
  case hlt | ret =>
    obtain ⟨rfl, rfl⟩ := takeOperands_zero.mp h
    exact ⟨rfl, rfl⟩
  case prn | push | pop | call | jmp | jeq | jne =>
    obtain ⟨a, rfl, rfl⟩ := takeOperands_one.mp h
    exact ⟨rfl, rfl⟩
  all_goals
    obtain ⟨a, b, rfl, rfl⟩ := takeOperands_two.mp h
    exact ⟨rfl, rfl⟩

/-! ### Decoding and encoding are inverse -/

theorem decode_of_takeOperands {op : Byte} {m : Mnemonic} {rest : List Byte} {r : Instr × List Byte}
    (hm : mnemonicOf op = some m) (ht : takeOperands m.shape rest = some r) : decode (op :: rest) = .ok r := by
  simp only [decode, hm, ht]

theorem decode_encode (i : Instr) (rest : List Byte) : decode (encode i ++ rest) = .ok (i, rest) :=
  decode_of_takeOperands (mnemonicOf_opcode i.mnemonic) (takeOperands_operandBytes i rest)

/-- R56, R58: no bit of an opcode or operand byte is lost by decoding. -/
theorem eq_encode_of_decode {bytes rest : List Byte} {i : Instr} (h : decode bytes = .ok (i, rest)) :
    bytes = encode i ++ rest := by
  cases bytes with
  | nil => cases h
  | cons op tail =>
    rcases decode_cons op tail with ⟨_, he⟩ | ⟨_, _, _, he⟩ | ⟨m, r, hm, ht, he⟩
    · cases he.symm.trans h
    · cases he.symm.trans h
    · obtain rfl : r = (i, rest) := Except.ok.inj (he.symm.trans h)
      obtain ⟨rfl, rfl⟩ := takeOperands_shape ht
      rw [← opcode_of_mnemonicOf hm]
      rfl

theorem encode_append_inj {i j : Instr} {after after' : List Byte}
    (h : encode i ++ after = encode j ++ after') : i = j ∧ after = after' := by
  have hd : decode (encode i ++ after) = .ok (j, after') := h ▸ decode_encode j after'
  exact Prod.mk.inj (Except.ok.inj ((decode_encode i after).symm.trans hd))

/-- Settles O2: the table gives back the mnemonic of an opcode and the format its operand bytes, and decoding is a
function of the bytes. -/
theorem decodeEncodeRoundTrip : Obligations.DecodeEncodeRoundTrip :=
  ⟨decode_encode, fun _ _ _ _ h => encode_append_inj h⟩

/-- Settles O3: the opcode byte matched is the mnemonic's own and the format takes just the operand bytes. -/
theorem decodedBytesAreTheEncoding : Obligations.DecodedBytesAreTheEncoding :=
  fun _ _ _ h => eq_encode_of_decode h

/-- Settles O1: each row is the encoding of its instruction, decoded. -/
theorem decodeReadsOpcodeTable : Obligations.DecodeReadsOpcodeTable := fun a b rest =>
  ⟨decode_encode .hlt rest, decode_encode (.ldi a b) rest, decode_encode (.prn a) rest,
    decode_encode (.push a) rest, decode_encode (.pop a) rest, decode_encode (.call a) rest,
    decode_encode .ret rest, decode_encode (.jmp a) rest, decode_encode (.jeq a) rest,
    decode_encode (.jne a) rest, decode_encode (.add a b) rest, decode_encode (.sub a b) rest,
    decode_encode (.mul a b) rest, decode_encode (.div a b) rest, decode_encode (.mod a b) rest,
    decode_encode (.cmp a b) rest, decode_encode (.and a b) rest, decode_encode (.or a b) rest,
    decode_encode (.xor a b) rest, decode_encode (.shl a b) rest, decode_encode (.shr a b) rest⟩

/-! ### The fields of the opcode byte (R51) -/

theorem opcodeNops_eq_shiftRight (b : Byte) : opcodeNops b = (b >>> 6).toNat := by
  have hb : b.toNat >>> 6 < 2 ^ 2 := by
    have := b.isLt
    omega
  rw [opcodeNops, BitVec.extractLsb'_toNat, BitVec.toNat_ushiftRight, Nat.mod_eq_of_lt hb]

/-- Constraint (a) of R55: field NOPS counts the operand bytes. -/
theorem length_operandBytes (i : Instr) : i.operandBytes.length = opcodeNops i.mnemonic.opcode := by
  cases i <;> simp [Instr.operandBytes, Instr.mnemonic, Mnemonic.opcode, opcodeNops]

theorem opcodeAlu_iff (m : Mnemonic) :
    opcodeAlu m.opcode = true ↔ m ∈ [.add, .sub, .mul, .div, .mod, .cmp, .and, .or, .xor, .shl, .shr] := by
  cases m <;> decide

theorem opcodeSetPc_iff (m : Mnemonic) :
    opcodeSetPc m.opcode = true ↔ m ∈ [.call, .ret, .jmp, .jeq, .jne] := by
  cases m <;> decide

/-- Settles O5: the bytes are the encoding, whose operand bytes NOPS counts, and no instruction is longer than three
bytes. -/
theorem instructionLengthIsOnePlusNops : Obligations.InstructionLengthIsOnePlusNops := by
  intro bytes rest i h
  have hnops := opcodeNops_eq_shiftRight i.mnemonic.opcode
  have hlen : i.operandBytes.length ≤ 2 := by
    rw [length_operandBytes]
    exact Nat.le_of_add_le_add_left (length_le_three i)
  exact ⟨i.mnemonic.opcode, i.operandBytes, eq_encode_of_decode h, (length_operandBytes i).trans hnops, hlen, rfl,
    congrArg (1 + ·) hnops⟩

/-- Settles O6: bits 5 and 4 are the fields ALU and SETPC of the opcode byte. -/
theorem opcodeBitsMarkTheClasses : Obligations.OpcodeBitsMarkTheClasses := fun i =>
  ⟨i.mnemonic.opcode, i.operandBytes, rfl, opcodeAlu_iff i.mnemonic, opcodeSetPc_iff i.mnemonic⟩

/-! ### The unlisted bytes (R57) -/

theorem mnemonicOf_eq_none_iff (b : Byte) :
    mnemonicOf b = none ↔ b ∉ Mnemonic.all.map Mnemonic.opcode := by
  simp [mnemonicOf]

theorem decode_unknownOpcode_iff (op : Byte) (rest : List Byte) :
    decode (op :: rest) = .error (.unknownOpcode op) ↔ mnemonicOf op = none := by
  rcases decode_cons op rest with ⟨hm, he⟩ | ⟨_, hm, _, he⟩ | ⟨_, _, hm, _, he⟩ <;> simp [hm, he]

/-- Settles O4: the list is the table's column of opcode bytes; the count evaluates the table on the 256 bytes. -/
theorem unlistedOpcodesAreRejected : Obligations.UnlistedOpcodesAreRejected :=
  ⟨fun op rest => (decode_unknownOpcode_iff op rest).trans (mnemonicOf_eq_none_iff op), by decide +kernel⟩

end Sys2Proof

namespace Sys2Proof.Machine

/-! ### The register operand byte (R53) -/

theorem checkReg_eq_ok_iff (b : Byte) (r : Reg) : checkReg b = .ok r ↔ b = r.index := by
  refine ⟨fun h => ?_, fun h => h ▸ checkReg_index r⟩
  rcases checkReg_cases b with ⟨r', hb, he⟩ | ⟨_, he⟩
  · rw [hb, Except.ok.inj (he.symm.trans h)]
  · cases he.symm.trans h

/-- Settles O7: the two answers of the register check. -/
theorem operandByteSelectsItsRegister : Obligations.OperandByteSelectsItsRegister :=
  ⟨checkReg_eq_ok_iff, fun _ h => checkReg_invalid h, rfl⟩

end Sys2Proof.Machine

/-!
PROOFS. The statements of spec/40_engine_cycle.md: what the step finds before it executes, how a run ends, that
faults are precise, how PC moves, operand bytes past the end of memory, and the outputs of the ALU block.
-/

namespace Sys2Proof.Machine

/-! ### The step before it executes (R70 to R74) -/

/-- Settles O16: this is the second case of the step. -/
theorem endOfMemoryEndsTheRun : Obligations.EndOfMemoryEndsTheRun := by
  intro s hr hp
  rcases step_cases s with ⟨hr', _⟩ | ⟨_, _, e⟩ | ⟨_, hp', _⟩ | ⟨_, _, _, hp', _⟩
  · exact absurd hr hr'
  · exact e
  · omega
  · omega

theorem step_of_decode {s : State} {i : Instr} {rest : List Byte} (hr : s.rs = .running)
    (hp : s.pc.toNat < 256) (hd : decode (fetchWindow s) = .ok (i, rest)) : step s = exec i s := by
  have hp' : ¬ Config.memoryBytes ≤ s.pc.toNat := Nat.not_le.mpr hp
  simp only [step, fetch, hr, hp', hd, ne_eq, not_true_eq_false, if_false]

/-- Settles O12: neither test of the step stops it, and the decoder answers the instruction. -/
theorem stepRunsDecodedInstruction : Obligations.StepRunsDecodedInstruction :=
  fun _ _ _ hr hp hd => step_of_decode hr (Nat.lt_succ_of_le hp) hd

/-- The byte the step matches against the opcodes is the one in memory at PC. -/
theorem byteAt_pc_of_decode {s : State} {i : Instr} {rest : List Byte} (hp : s.pc.toNat < 256)
    (hd : decode (fetchWindow s) = .ok (i, rest)) : byteAt s s.pc.toNat = i.mnemonic.opcode := by
  have hhead := fetchWindow_head? s hp
  rw [eq_encode_of_decode hd] at hhead
  exact (Option.some.inj hhead).symm

/-- Settles O17: a byte outside the 21 is no mnemonic's, so that nothing was decoded. -/
theorem unknownOpcodeFaults : Obligations.UnknownOpcodeFaults := by
  intro s hr hp hbyte
  have hm : mnemonicOf (byteAt s s.pc.toNat) = none := (mnemonicOf_eq_none_iff _).mpr hbyte
  rcases step_cases s with ⟨hr', _⟩ | ⟨_, hp', _⟩ | ⟨_, _, _, e⟩ | ⟨i, _, _, hp', hd, _⟩
  · exact absurd hr hr'
  · omega
  · exact e
  · rw [byteAt_pc_of_decode hp' hd, mnemonicOf_opcode] at hm
    cases hm

theorem fetchWindow_getElem? {s : State} {k : Nat} (hk : k < 3) (hp : s.pc.toNat + k < 256) :
    (fetchWindow s)[k]? = some (byteAt s (s.pc.toNat + k)) := by
  have hw : (fetchWindow s)[k]? = some (windowByte s k) := by
    match k, hk with
    | 0, _ | 1, _ | 2, _ => rfl
  rw [hw, windowByte_inRange s hp, byteAt]

theorem length_encode (i : Instr) : (encode i).length = i.length := by
  rw [Instr.length, ← length_operandBytes, Nat.add_comm]
  rfl

/-- Settles O13: the three bytes that the decoder sees begin with the encoding, and decoding undoes it. -/
theorem stepRunsInstructionInMemory : Obligations.StepRunsInstructionInMemory := by
  intro s i hr hp hbytes
  have hlen := length_le_three i
  have hpos : 0 < i.length := Nat.add_pos_left Nat.one_pos _
  obtain ⟨rest, hrest⟩ : encode i <+: fetchWindow s := by
    refine List.prefix_iff_getElem?.mpr fun k hk => ?_
    rw [length_encode] at hk
    rw [fetchWindow_getElem? (by omega) (by omega), ← hbytes k hk]
    exact List.getElem?_eq_getElem _
  exact step_of_decode hr (by omega) (hrest ▸ decode_encode i rest)

/-! ### A stopped engine (R72) -/

theorem step_of_stopped {s : State} (hr : s.rs ≠ .running) : step s = .next s := by
  simpa [hr] using step_cases s

/-- Settles O15, by induction on the number of steps. -/
theorem stoppedEngineNeverMoves : Obligations.StoppedEngineNeverMoves := by
  intro s n hr
  induction n with
  | zero => rfl
  | succ n ih =>
    have hstep : core.step s = .next s := step_of_stopped hr
    simp only [Host.Core.run, hstep]
    exact ih

/-! ### Every outcome is a next state (R160, R167) -/

theorem exists_conclude_eq_next (s : State) (e : Except Trap State) : ∃ t, conclude s e = .next t := by
  cases e <;> exact ⟨_, rfl⟩

theorem exists_aluInstr_eq_next (op : AluOp) (a b : Byte) (s : State) : ∃ t, aluInstr op a b s = .next t :=
  exists_conclude_eq_next s _

theorem exists_exec_eq_next (i : Instr) (s : State) : ∃ t, exec i s = .next t := by
  cases i <;> simp only [exec]
  case hlt | ldi | prn | push | pop | call | ret | jmp | jeq | jne => exact exists_conclude_eq_next s _
  all_goals exact exists_aluInstr_eq_next _ _ _ s

/-- Settles O18: every instruction ends in `conclude`, and the step's other cases answer a state themselves. -/
theorem everyStepAnswersANextState : Obligations.EveryStepAnswersANextState := by
  refine ⟨fun s => ?_, exists_exec_eq_next⟩
  rcases step_cases s with ⟨_, e⟩ | ⟨_, _, e⟩ | ⟨_, _, _, e⟩ | ⟨i, _, _, _, _, e⟩
  · exact ⟨_, e⟩
  · exact ⟨_, e⟩
  · exact ⟨_, e⟩
  · rw [e]; exact exists_exec_eq_next i s

/-! ### How an instruction leaves RUNNING (R78, R79) -/

theorem Completes.running_or_hlt {i : Instr} {s t : State} (h : Completes i s t) (hr : s.rs = .running) :
    t.rs = .running ∨ (i = .hlt ∧ t = halt (advance s 1) .halted) := by
  cases h
  case hlt => exact .inr ⟨rfl, rfl⟩
  all_goals exact .inl hr

/-- HLT halts; any other instruction goes on or takes a fault in the state it found. -/
theorem exec_rs_cases {i : Instr} {s t : State} (hr : s.rs = .running) (h : exec i s = .next t) :
    (i = .hlt ∧ t = halt (advance s 1) .halted) ∨
    (i ≠ .hlt ∧ (t.rs = .running ∨ ∃ tr, t = takeFault s tr)) := by
  by_cases hi : i = .hlt
  · subst hi
    exact .inl ⟨rfl, next_inj (h.symm.trans (execHlt_eq s))⟩
  · refine .inr ⟨hi, ?_⟩
    rcases exec_cases h with hf | hc
    · obtain ⟨c, info, _, e⟩ := hf.eq_takeFault
      exact .inr ⟨_, e⟩
    · exact .inl ((hc.running_or_hlt hr).resolve_right fun hh => hi hh.1)

theorem opcode_eq_hlt_iff (i : Instr) : i.mnemonic.opcode = 0x01#8 ↔ i = .hlt := by
  constructor
  · intro h
    have hm : i.mnemonic = .hlt := opcode_injective h
    cases i with
    | hlt => rfl
    | _ => cases hm
  · rintro rfl
    rfl

/-- Settles O20: the two tests of the step decide ENDED, the decoded byte decides HALTED, and a fault changes
nothing but RS, CAUSE and INFO. -/
theorem runEndsOnlyByHltOrEndOrFault : Obligations.RunEndsOnlyByHltOrEndOrFault := by
  intro s t hr h
  rcases step_cases s with ⟨hr', _⟩ | ⟨_, hp, e⟩ | ⟨_, hp, hm, e⟩ | ⟨i, _, _, hp, hd, e⟩
  · exact absurd hr hr'
  · obtain rfl := next_inj (e.symm.trans h)
    exact ⟨iff_of_false nofun (by omega), iff_of_true rfl hp, fun _ => ⟨rfl, rfl, rfl, rfl⟩⟩
  · obtain rfl := next_inj (e.symm.trans h)
    have hbyte : byteAt s s.pc.toNat ≠ 0x01#8 := by
      intro hb
      rw [← byteAt, hb] at hm
      cases hm.symm.trans (mnemonicOf_opcode .hlt)
    exact ⟨iff_of_false nofun (fun hh => hbyte hh.2), iff_of_false nofun (by omega),
      fun _ => ⟨rfl, rfl, rfl, rfl⟩⟩
  · have hbyte : byteAt s s.pc.toNat = 0x01#8 ↔ i = .hlt := by
      rw [byteAt_pc_of_decode hp hd, opcode_eq_hlt_iff]
    rw [e] at h
    rcases exec_rs_cases hr h with ⟨hi, rfl⟩ | ⟨hi, hrun | ⟨tr, rfl⟩⟩
    · exact ⟨iff_of_true rfl ⟨by omega, hbyte.mpr hi⟩, iff_of_false nofun (by omega),
        fun _ => ⟨rfl, rfl, rfl, rfl⟩⟩
    · rw [hrun]
      exact ⟨iff_of_false nofun (fun hh => hi (hbyte.mp hh.2)), iff_of_false nofun (by omega),
        fun hh => absurd rfl hh⟩
    · exact ⟨iff_of_false nofun (fun hh => hi (hbyte.mp hh.2)), iff_of_false nofun (by omega),
        fun _ => ⟨rfl, rfl, rfl, rfl⟩⟩

/-! ### Faults are precise (R79, R167) -/

theorem RaisesFault.eq_faulted {s t : State} (h : RaisesFault s t) :
    t = faulted s t.cause t.info ∧
      (t.cause = .outOfRange ∨ t.cause = .divisionByZero ∨ t.cause = .invalidRegister) := by
  rcases h with ⟨_, _, _, _, rfl⟩ | ⟨_, _, rfl⟩ | ⟨_, rfl⟩
  · exact ⟨rfl, .inl rfl⟩
  · exact ⟨rfl, .inr (.inr rfl)⟩
  · exact ⟨rfl, .inr (.inl rfl)⟩

/-- Settles O19: a step ends in FAULT only by an unknown opcode or by a fault of the instruction, and each is taken
in the state the step found. -/
theorem faultsArePrecise : Obligations.FaultsArePrecise := by
  intro s t hr h hfault
  cases stepEffect_of_step h with
  | stopped hr' => exact absurd hr hr'
  | ended => cases hfault
  | unknown => exact ⟨rfl, .inr (.inr (.inl rfl))⟩
  | raised _ _ hf =>
    obtain ⟨e, hc | hc | hc⟩ := hf.eq_faulted
    · exact ⟨e, .inl hc⟩
    · exact ⟨e, .inr (.inl hc)⟩
    · exact ⟨e, .inr (.inr (.inr hc))⟩
  | completed i _ _ hc =>
    rcases hc.running_or_hlt hr with hrun | ⟨_, rfl⟩
    · cases hrun.symm.trans hfault
    · cases hfault

/-! ### How PC moves (R76, R77) -/

theorem exec_jmp_ok {s : State} (r : Reg) (hp : s.pc.toNat + 1 < 256) :
    exec (.jmp r.index) s = .next (jumpTo s (readReg s r)) := by
  rw [exec, execJmp, branchOnReg_ok (op := .jmp) r hp (by rfl), conclude_ok]

theorem exec_jeq_taken {s : State} (r : Reg) (hp : s.pc.toNat + 1 < 256) (hE : s.fl.getLsbD 0 = true) :
    exec (.jeq r.index) s = .next (jumpTo s (readReg s r)) := by
  rw [exec, execJeq, branchOnReg_ok (op := .jeq) r hp hE, conclude_ok]

theorem exec_jne_taken {s : State} (r : Reg) (hp : s.pc.toNat + 1 < 256) (hE : s.fl.getLsbD 0 = false) :
    exec (.jne r.index) s = .next (jumpTo s (readReg s r)) := by
  rw [exec, execJne, branchOnReg_ok (op := .jne) r hp (congrArg (!·) hE), conclude_ok]

theorem exec_jeq_untaken {s : State} (a : Byte) (hE : s.fl.getLsbD 0 = false) :
    exec (.jeq a) s = .next (advance s 2) := by
  rw [exec, execJeq, branchOnReg_untaken (op := .jeq) a hE, conclude_ok]

theorem exec_jne_untaken {s : State} (a : Byte) (hE : s.fl.getLsbD 0 = true) :
    exec (.jne a) s = .next (advance s 2) := by
  rw [exec, execJne, branchOnReg_untaken (op := .jne) a (congrArg (!·) hE), conclude_ok]

theorem opcodeSetPc_iff_mem (m : Mnemonic) :
    opcodeSetPc m.opcode = true ↔ m.opcode ∈ [0x50#8, 0x11#8, 0x54#8, 0x55#8, 0x56#8] := by
  cases m <;> decide

/-- Settles O45: each instruction of the class completes in a jump to its target or, untaken, in an advance by 2. -/
theorem pcSettingClass : Obligations.PcSettingClass := by
  refine ⟨fun i => ⟨_, _, rfl, opcodeSetPc_iff_mem i.mnemonic⟩, fun s t r => ⟨?_, ?_, ?_, ?_, ?_⟩,
    fun s t a => ⟨?_, ?_⟩, rfl, rfl⟩
  · intro hp h
    exact next_inj (h.symm.trans (execCall_ok s r (by omega))) ▸ rfl
  · intro h
    exact next_inj (h.symm.trans (execRet_eq s)) ▸ rfl
  · intro hp h
    exact next_inj (h.symm.trans (exec_jmp_ok r (by omega))) ▸ rfl
  · intro hp hE h
    exact next_inj (h.symm.trans (exec_jeq_taken r (by omega) hE)) ▸ rfl
  · intro hp hE h
    exact next_inj (h.symm.trans (exec_jne_taken r (by omega) hE)) ▸ rfl
  · intro hE h
    exact next_inj (h.symm.trans (exec_jeq_untaken a hE)) ▸ rfl
  · intro hE h
    exact next_inj (h.symm.trans (exec_jne_untaken a hE)) ▸ rfl

/-- R76: an instruction outside the PC-setting class that completes advances PC past its operand bytes. -/
theorem Completes.pc_eq {i : Instr} {s t : State} (h : Completes i s t)
    (hi : i.mnemonic ∉ [.call, .ret, .jmp, .jeq, .jne]) :
    t.pc = s.pc + BitVec.ofNat 9 (1 + i.operandBytes.length) := by
  cases h
  case call | ret | jmp | jeqTaken | jeqUntaken | jneTaken | jneUntaken =>
    exact absurd (by simp [Instr.mnemonic]) hi
  case alu ho _ _ => rw [ho]; rfl
  all_goals rfl

/-- Constraint (a) of R55, for the instructions that R76 names. -/
theorem opcodeNops_of_generic {m : Mnemonic} (hm : m ∉ [.call, .ret, .jmp, .jeq, .jne]) :
    (m = .hlt → opcodeNops m.opcode = 0) ∧ (m ∈ [.prn, .push, .pop] → opcodeNops m.opcode = 1) ∧
      (m ∉ [.hlt, .prn, .push, .pop] → opcodeNops m.opcode = 2) := by
  revert hm
  cases m <;> decide

/-- Settles O46: an instruction of the class raises, which leaves PC, or completes and advances by its length. -/
theorem genericPcAdvance : Obligations.GenericPcAdvance := by
  intro i s t hi h
  rcases exec_cases h with hf | hc
  · obtain ⟨c, info, hne, rfl⟩ := hf.eq_takeFault
    exact .inl ⟨raised_takeFault s hne, rfl⟩
  · refine .inr ⟨fun hlt => ?_, length_operandBytes i, ?_⟩
    · rw [hc.pc_eq hi, BitVec.toNat_add, BitVec.toNat_ofNat]
      omega
    · rw [length_operandBytes]
      exact opcodeNops_of_generic hi

/-! ### Operand bytes past the end of memory (R75) -/

theorem readOperand_congr {s : State} {k : Nat} {v w : Byte} (h : s.pc.toNat + k ≤ 255 → v = w) :
    readOperand s k v = readOperand s k w := by
  by_cases hp : s.pc.toNat + k ≤ 255
  · rw [h hp]
  · rw [readOperand_outOfRange v (by omega), readOperand_outOfRange w (by omega)]

theorem oneReg_congr {s : State} {a b : Byte} (h : s.pc.toNat + 1 ≤ 255 → a = b) : oneReg s a = oneReg s b := by
  simp only [oneReg, readOperand_congr h]

theorem branchOnReg_congr {op : BranchOp} {s : State} {a b : Byte} (h : s.pc.toNat + 1 ≤ 255 → a = b) :
    branchOnReg op a s = branchOnReg op b s := by
  simp only [branchOnReg, oneReg_congr h]

theorem execLdi_congr {s : State} {a a' b b' : Byte} (ha : s.pc.toNat + 1 ≤ 255 → a = a')
    (hb : s.pc.toNat + 2 ≤ 255 → b = b') : execLdi a b s = execLdi a' b' s := by
  simp only [execLdi, regAndImm, readOperand_congr ha, readOperand_congr hb]

theorem aluInstr_congr {op : AluOp} {s : State} {a a' b b' : Byte} (ha : s.pc.toNat + 1 ≤ 255 → a = a')
    (hb : s.pc.toNat + 2 ≤ 255 → b = b') : aluInstr op a b s = aluInstr op a' b' s := by
  simp only [aluInstr, twoRegs, readOperand_congr ha, readOperand_congr hb]

/-- Settles O14: instructions of one mnemonic have one format, and each format reads its operand bytes through
`readOperand`, which raises before it shows a byte past memory. -/
theorem operandBytesPastMemoryAreUnused : Obligations.OperandBytesPastMemoryAreUnused := by
  intro s i j hm h
  have hi := takeOperands_operandBytes i []
  have hj := takeOperands_operandBytes j []
  rw [← hm] at hj
  cases hmi : i.mnemonic <;> rw [hmi] at hi hj
  case hlt | ret => rw [(takeOperands_zero.mp hi).1, (takeOperands_zero.mp hj).1]
  case prn | push | pop | call | jmp | jeq | jne =>
    obtain ⟨a, rfl, _⟩ := takeOperands_one.mp hi
    obtain ⟨b, rfl, _⟩ := takeOperands_one.mp hj
    have hab : s.pc.toNat + 1 ≤ 255 → a = b := fun hp => Option.some.inj (h 0 hp)
    simp only [exec, execPrn, execPush, execPop, execCall, execJmp, execJeq, execJne, oneReg_congr hab,
      branchOnReg_congr hab]
  all_goals
    obtain ⟨a, b, rfl, _⟩ := takeOperands_two.mp hi
    obtain ⟨a', b', rfl, _⟩ := takeOperands_two.mp hj
    have ha : s.pc.toNat + 1 ≤ 255 → a = a' := fun hp => Option.some.inj (h 0 hp)
    have hb : s.pc.toNat + 2 ≤ 255 → b = b' := fun hp => Option.some.inj (h 1 hp)
    simp only [exec]
  case ldi => exact execLdi_congr ha hb
  all_goals exact aluInstr_congr ha hb

/-! ### Operand reads at address 256 (R75, R161) -/

theorem readOperand_at_256 {s : State} {k : Nat} (v : Byte) (h : s.pc.toNat + k = 256) :
    readOperand s k v = .error ⟨.outOfRange, 256#9⟩ := by
  rw [readOperand_outOfRange v (by omega), ← outOfRange_info h]
  rfl

theorem conclude_oneReg_at_256 {s : State} {a : Byte} {f : Reg → Except Trap State} (h : s.pc.toNat = 255) :
    conclude s (oneReg s a >>= f) = .next (faulted s .outOfRange 256#9) := by
  rw [oneReg, readOperand_at_256 a (by omega)]
  rfl

theorem conclude_branchOnReg_at_256 {op : BranchOp} {s : State} (a : Byte) (h : s.pc.toNat = 255)
    (hb : branchTaken op (flagE s.fl) = true) :
    conclude s (branchOnReg op a s) = .next (faulted s .outOfRange 256#9) := by
  simp only [branchOnReg, hb, if_true]
  exact conclude_oneReg_at_256 h

/-- Both operand bytes of formats RI and RR are read first, so that the first of them at 256 raises. -/
theorem conclude_twoOperands_at_256 {s : State} {a b : Byte} {f : Byte → Byte → Except Trap State}
    (h : s.pc.toNat = 254 ∨ s.pc.toNat = 255) :
    conclude s (do let a ← readOperand s 1 a; let b ← readOperand s 2 b; f a b) =
      .next (faulted s .outOfRange 256#9) := by
  rcases h with h | h
  · rw [readOperand_ok a (by omega), ok_bind, readOperand_at_256 b (by omega)]
    rfl
  · rw [readOperand_at_256 a (by omega)]
    rfl

theorem execLdi_at_256 {s : State} (a imm : Byte) (h : s.pc.toNat = 254 ∨ s.pc.toNat = 255) :
    execLdi a imm s = .next (faulted s .outOfRange 256#9) := by
  simp only [execLdi, regAndImm, bind_assoc]
  exact conclude_twoOperands_at_256 h

theorem aluInstr_at_256 {op : AluOp} {s : State} {a b : Byte} (h : s.pc.toNat = 254 ∨ s.pc.toNat = 255) :
    aluInstr op a b s = .next (faulted s .outOfRange 256#9) := by
  simp only [aluInstr, twoRegs, bind_assoc]
  exact conclude_twoOperands_at_256 h

/-- Settles O55: every one of these instructions begins with the read that raises. -/
theorem operandReadPastMemoryFaults : Obligations.OperandReadPastMemoryFaults := by
  intro s a b
  refine ⟨fun hpc => ?_, fun hpc => ?_⟩
  · have h : s.pc.toNat = 255 := by rw [hpc]; rfl
    simp only [List.forall_mem_cons, exec]
    refine ⟨?_, fun hE => conclude_branchOnReg_at_256 a h hE,
      fun hE => conclude_branchOnReg_at_256 a h (congrArg (!·) hE)⟩
    exact ⟨conclude_oneReg_at_256 h, conclude_oneReg_at_256 h, conclude_oneReg_at_256 h,
      conclude_oneReg_at_256 h, conclude_branchOnReg_at_256 a h rfl, nofun⟩
  · have h : s.pc.toNat = 254 ∨ s.pc.toNat = 255 := hpc.imp (fun e => by rw [e]; rfl) (fun e => by rw [e]; rfl)
    simp only [List.forall_mem_cons, exec]
    refine ⟨execLdi_at_256 a b h, ?_, ?_, ?_, ?_, ?_, ?_, ?_, ?_, ?_, ?_, ?_, nofun⟩
    all_goals exact aluInstr_at_256 h

/-! ### The outputs of the ALU block (R80) -/

theorem aluApply_cases (sel va vb : Byte) :
    (∃ op : AluOp, sel = op.select ∧ aluApply sel va vb = aluCompute op va vb) ∨
    (sel ∉ AluOp.all.map AluOp.select ∧ aluApply sel va vb = .unsupportedSelect) := by
  cases h : aluOpOf sel with
  | some op =>
    have hsel : op.select = sel := by simpa using List.find?_some h
    exact .inl ⟨op, hsel.symm, by simp only [aluApply, h]⟩
  | none => exact .inr ⟨by simpa [aluOpOf] using h, by simp only [aluApply, h]⟩

@[simp] theorem unsupported_aluCompute (op : AluOp) (va vb : Byte) : (aluCompute op va vb).unsupported = false := by
  rcases aluCompute_cases op va vb with ⟨_, _, _, e⟩ | ⟨_, e⟩ | ⟨_, _, e⟩ <;> rw [e] <;> rfl

theorem divZero_aluCompute_iff (op : AluOp) (va vb : Byte) :
    (aluCompute op va vb).divZero = true ↔ (op = .div ∨ op = .mod) ∧ vb = 0#8 := by
  rcases aluCompute_cases op va vb with ⟨v, hv, _, e⟩ | ⟨rfl, e⟩ | ⟨hop, hz, e⟩ <;> rw [e]
  · refine iff_of_false nofun ?_
    rintro ⟨rfl | rfl, rfl⟩ <;> cases hv
  · exact iff_of_false nofun nofun
  · exact iff_of_true rfl ⟨hop, hz⟩

theorem writeFlags_aluCompute_iff (op : AluOp) (va vb : Byte) :
    (aluCompute op va vb).writeFlags = true ↔ op = .cmp := by
  rcases aluCompute_cases op va vb with ⟨_, _, hne, e⟩ | ⟨rfl, e⟩ | ⟨rfl | rfl, _, e⟩ <;> rw [e]
  · exact iff_of_false nofun hne
  · exact iff_of_true rfl rfl
  · exact iff_of_false nofun nofun
  · exact iff_of_false nofun nofun

theorem writeReg_aluCompute_iff (op : AluOp) (va vb : Byte) :
    (aluCompute op va vb).writeReg = true ↔ op ≠ .cmp ∧ (aluCompute op va vb).divZero = false := by
  rcases aluCompute_cases op va vb with ⟨_, _, hne, e⟩ | ⟨rfl, e⟩ | ⟨_, _, e⟩ <;> rw [e]
  · exact iff_of_true rfl ⟨hne, rfl⟩
  · exact iff_of_false nofun fun h => h.1 rfl
  · exact iff_of_false nofun fun h => nomatch h.2

/-- Settles O54: a select outside the eleven is answered by `unsupported` alone, and one of the eleven by the outputs
of its operation. -/
theorem aluBlockOutputs : Obligations.AluBlockOutputs := by
  intro sel va vb
  rcases aluApply_cases sel va vb with ⟨op, rfl, e⟩ | ⟨hsel, e⟩ <;> rw [e]
  · rw [unsupported_aluCompute, divZero_aluCompute_iff, writeFlags_aluCompute_iff, writeReg_aluCompute_iff]
    refine ⟨?_, and_congr_left fun _ => ?_, ?_, and_congr_left fun _ => ?_⟩ <;> cases op <;> decide
  · have hout : ∀ {l : List Byte}, l ⊆ AluOp.all.map AluOp.select → sel ∉ l := fun hl h => hsel (hl h)
    refine ⟨iff_of_true rfl hsel, iff_of_false nofun fun h => ?_, iff_of_false nofun fun h => ?_,
      iff_of_false nofun fun h => ?_⟩
    · exact hout (by decide) h.1
    · exact hout (l := [0xA7#8]) (by decide) (List.mem_singleton.mpr h)
    · exact hout (by decide) h.1

end Sys2Proof.Machine

/-!
PROOFS. The statements of spec/41_base.md: HLT, LDI and PRN on valid operands, their frame with faults included,
LDI followed by PRN, and the transfers on the OUT port.
-/

namespace Sys2Proof.Machine

/-! ### HLT, LDI and PRN that complete (R90 to R92) -/

/-- Settles O30: HLT has this one answer. -/
theorem hltHalts : Obligations.HltHalts := execHlt_eq

theorem registersKeptBut_writeReg (s : State) (r : Reg) (v : Byte) : RegistersKeptBut [r] s (writeReg s r v) :=
  fun _ hq => readReg_writeReg_ne s v (List.ne_of_not_mem_cons hq)

/-- Settles O31: with both operand bytes in memory LDI writes the one register and advances PC. -/
theorem ldiLoadsItsImmediate : Obligations.LdiLoadsItsImmediate := fun s r imm hp =>
  ⟨advance (writeReg s r imm) 3, execLdi_ok s r imm (by omega), readReg_writeReg_same s r imm, rfl,
    registersKeptBut_writeReg s r imm, fun _ => rfl, rfl, rfl, rfl, rfl, rfl⟩

/-- Settles O32: with the operand byte in memory PRN emits the register and advances PC. -/
theorem prnEmitsItsRegister : Obligations.PrnEmitsItsRegister := fun s r hp =>
  ⟨advance (emit s (readReg s r)) 2, execPrn_ok s r (by omega), rfl, rfl, fun _ _ => rfl, fun _ => rfl, rfl,
    rfl, rfl, rfl⟩

/-- Settles O57: LDI leaves PC at most 254 and the value in the register, which PRN then emits. -/
theorem ldiThenPrnOutputsTheValue : Obligations.LdiThenPrnOutputsTheValue := by
  intro s t r v hp h
  obtain ⟨t', ht, hreg, hpc, _, _, _, hout, _⟩ := ldiLoadsItsImmediate s r v (by omega)
  obtain rfl := next_inj (h.symm.trans ht)
  have htpc : t.pc.toNat = s.pc.toNat + 3 := by rw [hpc]; bv_omega
  obtain ⟨u, hu, huout, hupc, hkept, _⟩ := prnEmitsItsRegister t r (by omega)
  refine ⟨u, hu, ?_, ?_, ?_⟩
  · rw [huout, hreg, hout]
  · rw [hkept r nofun, hreg]
  · rw [hupc]; bv_omega

/-! ### The frame, faults included (R166, R167) -/

theorem RaisesFault.raised {s t : State} (h : RaisesFault s t) : Raised s t := by
  obtain ⟨c, info, hne, rfl⟩ := h.eq_takeFault
  exact raised_takeFault s hne

/-- A fault keeps registers, memory, FL and OUT. -/
theorem Raised.frame {s t : State} (h : Raised s t) :
    t.regs = s.regs ∧ MemoryKept s t ∧ t.fl = s.fl ∧ t.out = s.out := by
  obtain ⟨c, info, _, rfl⟩ := h
  exact ⟨rfl, fun _ => rfl, rfl, rfl⟩

theorem raised_or_eq_of_exec_ldi {s t : State} {a imm : Byte} (h : exec (.ldi a imm) s = .next t) :
    Raised s t ∨ ∃ r : Reg, a = r.index ∧ t = advance (writeReg s r imm) 3 := by
  refine (exec_cases h).imp RaisesFault.raised fun hc => ?_
  cases hc
  case ldi r _ => exact ⟨r, rfl, rfl⟩
  case alu op _ _ _ _ hm _ _ _ => cases op <;> cases hm

theorem raised_or_eq_of_exec_prn {s t : State} {a : Byte} (h : exec (.prn a) s = .next t) :
    Raised s t ∨ ∃ r : Reg, a = r.index ∧ t = advance (emit s (readReg s r)) 2 := by
  refine (exec_cases h).imp RaisesFault.raised fun hc => ?_
  cases hc
  case prn r _ => exact ⟨r, rfl, rfl⟩
  case alu op _ _ _ _ hm _ _ _ => cases op <;> cases hm

/-- Settles O33: HLT always completes, and LDI and PRN raise, which changes nothing else, or complete. -/
theorem baseFrame : Obligations.BaseFrame := by
  intro s t a imm
  refine ⟨fun h => ?_, fun h => ?_, fun h => ?_⟩
  · obtain rfl := next_inj (h.symm.trans (execHlt_eq s))
    exact ⟨rfl, fun _ => rfl, rfl, rfl, rfl, rfl⟩
  · rcases raised_or_eq_of_exec_ldi h with hf | ⟨r, rfl, rfl⟩
    · obtain ⟨hregs, hmem, hfl, hout⟩ := hf.frame
      exact ⟨fun q _ => congrArg (Regs.get · q) hregs, hmem, hfl, hout, .inr hf⟩
    · have hkept : ∀ q : Reg, q.index ≠ r.index → readReg (writeReg s r imm) q = readReg s q :=
        fun q hq => readReg_writeReg_ne s imm fun e => hq (congrArg Reg.index e)
      exact ⟨hkept, fun _ => rfl, rfl, rfl, .inl ⟨rfl, rfl, rfl⟩⟩
  · rcases raised_or_eq_of_exec_prn h with hf | ⟨r, rfl, rfl⟩
    · obtain ⟨hregs, hmem, hfl, hout⟩ := hf.frame
      exact ⟨hregs, hmem, hfl, .inr ⟨hf, hout⟩⟩
    · exact ⟨rfl, fun _ => rfl, rfl, .inl ⟨rfl, rfl, rfl⟩⟩

/-! ### The OUT port (R92, R140, R145) -/

theorem outTransfer_of_kept {s t : State} (h : t.out = s.out) : outTransfer s t = none := by
  rw [outTransfer, h]
  exact List.getElem?_length _

theorem outTransfer_of_append {s t : State} {v : Byte} (h : t.out = s.out ++ [v]) :
    outTransfer s t = some v := by
  rw [outTransfer, h]
  exact List.getElem?_concat_length

/-- R92: only PRN appends to OUT, and it appends one byte. -/
theorem Completes.out_cases {i : Instr} {s t : State} (h : Completes i s t) :
    t.out = s.out ∨
      ∃ r : Reg, i = .prn r.index ∧ s.pc.toNat + 1 < 256 ∧ t.out = s.out ++ [readReg s r] := by
  cases h
  case prn r hp => exact .inr ⟨r, rfl, hp, rfl⟩
  all_goals exact .inl rfl

/-- The engine runs, and PRN of the register stands in memory at PC. -/
def PrnAtPc (s : State) (r : Reg) : Prop :=
  s.rs = .running ∧ s.pc.toNat ≤ 254 ∧ byteAt s s.pc.toNat = 0x47#8 ∧ byteAt s (s.pc.toNat + 1) = r.index

theorem byteAt_operand_of_decode {s : State} {r : Reg} {rest : List Byte} (hp : s.pc.toNat + 1 < 256)
    (hd : decode (fetchWindow s) = .ok (.prn r.index, rest)) : byteAt s (s.pc.toNat + 1) = r.index := by
  have h1 := fetchWindow_getElem? (k := 1) (by decide) hp
  rw [eq_encode_of_decode hd] at h1
  exact (Option.some.inj h1).symm

theorem step_of_prnAtPc {s : State} {r : Reg} (h : PrnAtPc s r) :
    step s = .next (advance (emit s (readReg s r)) 2) := by
  obtain ⟨hr, hp, hop, ha⟩ := h
  have hlen : Instr.length (.prn r.index) = 2 := (length_encode _).symm
  refine (stepRunsInstructionInMemory s (.prn r.index) hr (by omega) fun k hk => ?_).trans
    (execPrn_ok s r (by omega))
  obtain rfl | rfl : k = 0 ∨ k = 1 := by omega
  · exact congrArg some hop.symm
  · exact congrArg some ha.symm

/-- A step keeps OUT, or runs the PRN at PC and appends its register. -/
theorem step_out_cases {s t : State} (h : step s = .next t) :
    t.out = s.out ∨ ∃ r : Reg, PrnAtPc s r ∧ t.out = s.out ++ [readReg s r] := by
  rcases step_cases s with ⟨_, e⟩ | ⟨_, _, e⟩ | ⟨_, _, _, e⟩ | ⟨i, rest, hr, hp, hd, e⟩ <;> rw [e] at h
  · exact .inl (next_inj h ▸ rfl)
  · exact .inl (next_inj h ▸ rfl)
  · exact .inl (next_inj h ▸ rfl)
  · rcases exec_cases h with hf | hc
    · obtain ⟨_, _, _, hout⟩ := hf.raised.frame
      exact .inl hout
    · refine hc.out_cases.imp_right ?_
      rintro ⟨r, rfl, hp1, hout⟩
      exact ⟨r, ⟨hr, by omega, byteAt_pc_of_decode hp hd, byteAt_operand_of_decode hp1 hd⟩, hout⟩

/-- Settles O25: a step that transfers is a PRN at PC, and a PRN at PC is the step that emits its register. -/
theorem outTransfersOncePerPrn : Obligations.OutTransfersOncePerPrn := by
  intro s t h
  refine ⟨?_, fun v => ⟨fun hv => ?_, ?_⟩⟩
  · rcases step_out_cases h with hout | ⟨r, _, hout⟩
    · rw [outTransfer_of_kept hout, hout]
      exact (List.append_nil _).symm
    · rw [outTransfer_of_append hout, hout]
      rfl
  · rcases step_out_cases h with hout | ⟨r, ⟨hr, hp, hop, ha⟩, hout⟩
    · cases (outTransfer_of_kept hout).symm.trans hv
    · exact ⟨r, hr, hp, hop, ha, Option.some.inj (hv.symm.trans (outTransfer_of_append hout))⟩
  · rintro ⟨r, hr, hp, hop, ha, rfl⟩
    obtain rfl := next_inj (h.symm.trans (step_of_prnAtPc ⟨hr, hp, hop, ha⟩))
    exact outTransfer_of_append rfl

end Sys2Proof.Machine

/-!
PROOFS. The statements of spec/42_stack.md: PUSH and POP on valid operands, a PUSH undone by a POP, and the frame of
the four stack instructions with faults included.
-/

namespace Sys2Proof.Machine

/-! ### Registers and bytes after a push or a pop (R100, R101, R104) -/

theorem registersKeptBut_decSp (s : State) : RegistersKeptBut [.r7] s (decSp s) :=
  registersKeptBut_writeReg s sp _

theorem registersKeptBut_incSp (s : State) : RegistersKeptBut [.r7] s (incSp s) :=
  registersKeptBut_writeReg s sp _

theorem readReg_incSp_writeReg_ne (s : State) {r q : Reg} (v : Byte) (hr : q ≠ r) (hsp : q ≠ sp) :
    readReg (incSp (writeReg s r v)) q = readReg s q := by
  rw [readReg_incSp, if_neg hsp, readReg_writeReg_ne s v hr]

theorem byteAt_pushed_same {s : State} (hs : MemoryCanonical s) (v : Byte) :
    byteAt (pushed s v) (readReg s sp - 1#8).toNat = v :=
  Memory.read_write_same s.mem _ v 0 hs

theorem byteAt_pushed_ne (s : State) (v : Byte) {a : Nat} (h : a ≠ (readReg s sp - 1#8).toNat) :
    byteAt (pushed s v) a = byteAt s a :=
  Memory.read_write_ne s.mem _ a v h

/-! ### PUSH and POP that complete (R100, R101, R103) -/

/-- Settles O34: with the operand byte in memory PUSH pushes the register, read after SP was decremented. -/
theorem pushStoresItsRegister : Obligations.PushStoresItsRegister := by
  intro s r hs hp
  refine ⟨advance (pushed s (readReg (decSp s) r)) 2, execPush_ok s r (by omega), readReg_sp_decSp s, ?_, rfl,
    registersKeptBut_decSp s, fun _ ha => byteAt_pushed_ne s _ ha, rfl, rfl, rfl, rfl, rfl⟩
  exact (byteAt_pushed_same hs _).trans (readReg_decSp s r)

/-- Settles O35: with the operand byte in memory POP writes the byte at SP to the register, then increments SP, so
that R7 as the register ends one above that byte. -/
theorem popLoadsItsRegister : Obligations.PopLoadsItsRegister := by
  intro s r hp
  have hkept : ∀ q : Reg, q ∉ [r, .r7] →
      readReg (incSp (writeReg s r (byteAt s (readReg s sp).toNat))) q = readReg s q := fun q hq =>
    readReg_incSp_writeReg_ne s _ (List.ne_of_not_mem_cons hq)
      (List.ne_of_not_mem_cons (List.not_mem_of_not_mem_cons hq))
  refine ⟨_, execPop_ok s r (by omega), fun hr => ⟨?_, ?_⟩, ?_, rfl, hkept, fun _ => rfl, rfl, rfl, rfl, rfl, rfl⟩
  · exact (readReg_writeReg_ne _ _ hr).trans (readReg_writeReg_same s r _)
  · exact (readReg_sp_incSp _).trans (congrArg (· + 1#8) (readReg_writeReg_ne s _ hr.symm))
  · rintro rfl
    exact (readReg_sp_incSp _).trans (congrArg (· + 1#8) (readReg_writeReg_same s sp _))

/-- Settles O36: POP reads the byte at the SP that PUSH left, which is the pushed one, and the increment of SP
undoes the decrement, modulo 256. -/
theorem pushThenPopRestores : Obligations.PushThenPopRestores := by
  intro s t a d hs hp ha hd h
  obtain ⟨t', ht, htsp, htbyte, htpc, htkept, _⟩ := pushStoresItsRegister s a hs (by omega)
  obtain rfl := next_inj (h.symm.trans ht)
  have hpc : t.pc.toNat ≤ 254 := by rw [htpc]; bv_omega
  obtain ⟨u, hu, hload, _, _, hukept, _⟩ := popLoadsItsRegister t d hpc
  obtain ⟨hud, husp⟩ := hload hd
  have hspBack : readReg u .r7 = readReg s .r7 := by rw [husp, htsp, BitVec.sub_add_cancel]
  refine ⟨u, hu, ?_, hspBack, fun q hq => ?_⟩
  · rw [hud, htsp, htbyte, if_neg ha]
  · by_cases hq7 : q = .r7
    · rw [hq7, hspBack]
    · have hq7' : q ∉ [Reg.r7] := mt List.mem_singleton.mp hq7
      rw [hukept q (List.not_mem_cons_of_ne_of_not_mem (List.ne_of_not_mem_cons hq) hq7'), htkept q hq7']

/-! ### The frame, faults included (R100, R101, R104, R110, R111) -/

theorem spAddress_decSp (s : State) : spAddress (decSp s) = ((readReg s sp - 1#8).toNat : Int) := by
  rw [spAddress, readReg_sp_decSp]

/-- PUSH and CALL raise, or push one byte and set PC. -/
theorem raised_or_pushed_of_exec {s t : State} {a : Byte}
    (h : exec (.push a) s = .next t ∨ exec (.call a) s = .next t) :
    Raised s t ∨ ∃ (v : Byte) (pc : Word9), t = { pushed s v with pc := pc } := by
  rcases h with h | h
  · rcases execPush_cases a s with ⟨_, _, _, e⟩ | hf
    · exact .inr ⟨_, _, next_inj (h.symm.trans e)⟩
    · exact .inl (raisesFault_of_oneReg hf h).raised
  · rcases execCall_cases a s with ⟨_, _, _, e⟩ | ⟨_, _, e⟩ | hf
    · exact .inr ⟨_, _, next_inj (h.symm.trans e)⟩
    · exact .inl (next_inj (h.symm.trans e) ▸ raised_takeFault s nofun)
    · exact .inl (raisesFault_of_oneReg hf h).raised

theorem raised_or_eq_of_exec_pop {s t : State} {a : Byte} (h : exec (.pop a) s = .next t) :
    Raised s t ∨ ∃ (r : Reg) (v : Byte), a = r.index ∧ t = advance (incSp (writeReg s r v)) 2 := by
  rcases execPop_cases a s with ⟨r, _, hr, e⟩ | hf
  · exact .inr ⟨r, _, hr, next_inj (h.symm.trans e)⟩
  · exact .inl (raisesFault_of_oneReg hf h).raised

/-- Settles O37: PUSH, CALL and POP raise, which changes nothing else, or complete; RET always completes. -/
theorem stackFrame : Obligations.StackFrame := by
  intro s t a
  refine ⟨fun h => ?_, fun h => ?_, fun h => ?_⟩
  · rcases raised_or_pushed_of_exec h with hf | ⟨v, pc, rfl⟩
    · obtain ⟨hregs, hmem, hfl, hout⟩ := hf.frame
      exact ⟨fun q _ => congrArg (Regs.get · q) hregs, fun x _ => hmem x, hfl, hout, .inr hf⟩
    · refine ⟨registersKeptBut_decSp s, fun x hx => byteAt_pushed_ne s v ?_, rfl, rfl, .inl ⟨rfl, rfl, rfl⟩⟩
      rw [spAddress_decSp] at hx
      exact fun e => hx (congrArg Nat.cast e)
  · rcases raised_or_eq_of_exec_pop h with hf | ⟨r, v, rfl, rfl⟩
    · obtain ⟨hregs, hmem, hfl, hout⟩ := hf.frame
      exact ⟨fun q _ _ => congrArg (Regs.get · q) hregs, hmem, hfl, hout, .inr hf⟩
    · exact ⟨fun q hq hsp => readReg_incSp_writeReg_ne s v (fun e => hq (congrArg Reg.index e)) hsp,
        fun _ => rfl, rfl, rfl, .inl ⟨rfl, rfl, rfl⟩⟩
  · obtain rfl := next_inj (h.symm.trans (execRet_eq s))
    exact ⟨registersKeptBut_incSp _, fun _ => rfl, rfl, rfl, rfl, rfl, rfl⟩

end Sys2Proof.Machine

/-!
PROOFS. The statements of spec/43_control_transfer.md: CALL and RET, a CALL undone by a RET, JMP, JEQ and JNE, their
frame with faults included, and a branch after CMP.
-/

namespace Sys2Proof.Machine

/-! ### CALL and RET (R110, R111, R116) -/

/-- Settles O38: with PC + 2 in memory CALL pushes it, then jumps to the register, read after SP was decremented. -/
theorem callPushesReturnAddress : Obligations.CallPushesReturnAddress := by
  intro s r hs hp
  refine ⟨_, execCall_ok s r (by omega), readReg_sp_decSp s, ?_, ?_, registersKeptBut_decSp s,
    fun _ ha => byteAt_pushed_ne s _ ha, rfl, rfl, rfl, rfl, rfl⟩
  · have hret := byteAt_pushed_same hs (BitVec.ofNat 8 (s.pc.toNat + 2))
    exact (congrArg BitVec.toNat hret).trans ((BitVec.toNat_ofNat _ _).trans (Nat.mod_eq_of_lt (by omega)))
  · exact (zext9_toNat _).trans (congrArg BitVec.toNat (readReg_decSp s r))

/-- Settles O39: the register is accepted, and the return address 256 is no address of memory. -/
theorem callAt254Faults : Obligations.CallAt254Faults := by
  intro s r hpc
  have hp : s.pc.toNat = 254 := by rw [hpc]; rfl
  rcases execCall_cases r.index s with ⟨_, h, _⟩ | ⟨_, _, e⟩ | ⟨h, _⟩ | ⟨h, _⟩
  · omega
  · rw [takeFault, outOfRange_info (by omega)] at e
    exact e
  · omega
  · have := index_le_seven r
    omega

/-- Settles O40: RET has one answer, whose PC is a byte widened to 9 bits. -/
theorem retPopsIntoPc : Obligations.RetPopsIntoPc := by
  refine ⟨decode_encode .ret, fun s => ?_⟩
  have hpc : (zext9 (byteAt s (readReg s sp).toNat)).toNat = (byteAt s (readReg s sp).toNat).toNat := zext9_toNat _
  refine ⟨_, execRet_eq s, hpc, ?_, ?_, registersKeptBut_incSp _, fun _ => rfl, rfl, rfl, rfl, rfl, rfl⟩
  · exact hpc.trans_le (Nat.le_of_lt_succ (BitVec.isLt _))
  · exact (congrArg BitVec.toNat (readReg_sp_incSp _)).trans (BitVec.toNat_add _ _)

/-- Settles O44: RET reads the byte at the SP that CALL left, which is the return address, and the increment of SP
undoes the decrement, modulo 256. -/
theorem callThenRetReturns : Obligations.CallThenRetReturns := by
  intro s t u r hs hp h husp hubyte
  obtain ⟨t', ht, htsp, htbyte, _⟩ := callPushesReturnAddress s r hs hp
  obtain rfl := next_inj (h.symm.trans ht)
  obtain ⟨_, hret⟩ := retPopsIntoPc
  obtain ⟨w, hw, hwpc, _, hwsp, _⟩ := hret u
  refine ⟨w, hw, ?_, BitVec.eq_of_toNat_eq ?_⟩
  · rw [hwpc, husp, hubyte, htsp, htbyte]
  · rw [hwsp, husp, htsp]
    bv_omega

/-! ### JMP, JEQ and JNE (R112 to R115) -/

/-- Settles O41: with the operand byte in memory JMP jumps to the register's value. -/
theorem jmpSetsPc : Obligations.JmpSetsPc := fun s r hp =>
  ⟨_, exec_jmp_ok r (by omega), zext9_toNat _, rfl, fun _ => rfl, rfl, rfl, rfl, rfl, rfl⟩

/-- Settles O42: E selects the taken or the untaken answer of each. -/
theorem jeqAndJneBranchOnE : Obligations.JeqAndJneBranchOnE := fun _ =>
  ⟨fun hE => ⟨fun r hp => exec_jeq_taken r (by omega) hE, fun a => exec_jne_untaken a hE⟩,
    fun hE => ⟨fun r hp => exec_jne_taken r (by omega) hE, fun a => exec_jeq_untaken a hE⟩⟩

/-- A branch raises, or sets PC and nothing else. -/
theorem raised_or_setPc_of_branchOnReg {op : BranchOp} {a : Byte} {s t : State}
    (h : conclude s (branchOnReg op a s) = .next t) : Raised s t ∨ ∃ pc : Word9, t = { s with pc := pc } := by
  rcases branchOnReg_cases op a s with ⟨_, _, _, _, e⟩ | ⟨_, e⟩ | ⟨_, hf⟩
  · exact .inr ⟨_, next_inj (h.symm.trans e)⟩
  · exact .inr ⟨_, next_inj (h.symm.trans e)⟩
  · exact .inl (raisesFault_of_oneReg hf h).raised

/-- Settles O43: the three are one branch with different conditions, which raises or sets PC alone. -/
theorem branchFrame : Obligations.BranchFrame := by
  intro s t a h
  have hbranch : ∃ op, conclude s (branchOnReg op a s) = .next t := by
    rcases h with h | h | h
    · exact ⟨.jmp, h⟩
    · exact ⟨.jeq, h⟩
    · exact ⟨.jne, h⟩
  obtain ⟨op, h⟩ := hbranch
  rcases raised_or_setPc_of_branchOnReg h with hf | ⟨pc, rfl⟩
  · obtain ⟨hregs, hmem, hfl, hout⟩ := hf.frame
    exact ⟨hregs, hmem, hfl, hout, .inr hf⟩
  · exact ⟨rfl, fun _ => rfl, rfl, rfl, .inl ⟨rfl, rfl, rfl⟩⟩

/-! ### A branch after CMP (R113, R114, R130) -/

/-- R130: a comparison sets E on equal values and clears it on unequal ones. -/
theorem flagE_compareFlags (va vb : Byte) : flagE (flagsByte (compareFlags va vb)) = decide (va = vb) := by
  by_cases h : va = vb
  · rw [compareFlags, if_pos h, decide_eq_true h]
    rfl
  · rw [compareFlags, if_neg h, decide_eq_false h]
    split <;> rfl

/-- R130: a CMP that finds its operand bytes in memory keeps the registers, advances PC by 3 and sets E to equality. -/
theorem regs_pc_flagE_of_exec_cmp {s t : State} {ra rb : Reg} (hp : s.pc.toNat + 2 < 256)
    (h : exec (.cmp ra.index rb.index) s = .next t) :
    (∀ r : Reg, readReg t r = readReg s r) ∧ t.pc.toNat = s.pc.toNat + 3 ∧
      flagE t.fl = decide (readReg s ra = readReg s rb) := by
  rw [exec_cmp, aluInstr_compare hp] at h
  obtain rfl := next_inj h
  exact ⟨fun _ => rfl, advance_pc_toNat (by rw [setFlags_pc]; omega), flagE_compareFlags _ _⟩

/-- Settles O58: CMP leaves E as the equality of the two values, the registers as they were and PC at most 254, so
that both branches complete. -/
theorem cmpThenBranchIffEqual : Obligations.CmpThenBranchIffEqual := by
  intro s t ra rb rt hp h
  obtain ⟨hregs, hpc, hE⟩ := regs_pc_flagE_of_exec_cmp (by omega) h
  have hjump : (jumpTo t (readReg t rt)).pc.toNat = (readReg s rt).toNat := by
    rw [jumpTo_pc, zext9_toNat, hregs]
  have hgo : (advance t 2).pc.toNat = s.pc.toNat + 5 := by rw [advance_pc_toNat (by omega), hpc]
  by_cases heq : readReg s ra = readReg s rb
  · rw [decide_eq_true heq] at hE
    exact ⟨_, _, exec_jeq_taken rt (by omega) hE, exec_jne_untaken _ hE, fun _ => ⟨hjump, hgo⟩,
      fun hne => absurd heq hne⟩
  · rw [decide_eq_false heq] at hE
    exact ⟨_, _, exec_jeq_untaken _ hE, exec_jne_taken rt (by omega) hE, fun e => absurd e heq,
      fun _ => ⟨hgo, hjump⟩⟩

end Sys2Proof.Machine

/-!
PROOFS. The statements of spec/44_alu_arithmetic.md: ADD, SUB, MUL, DIV and MOD on valid operands, a zero divisor, and
the frame of the eleven ALU instructions with faults included.
-/

namespace Sys2Proof.Machine

/-! ### The frame, faults included (R17, R120, R126, R130) -/

/-- What an ALU instruction leaves: a fault, one register written, or, for CMP alone, a new FL. -/
theorem raised_or_eq_of_aluInstr {op : AluOp} {a b : Byte} {s t : State} (h : aluInstr op a b s = .next t) :
    Raised s t ∨
    (op ≠ .cmp ∧ ∃ (r : Reg) (v : Byte), a = r.index ∧ t = advance (writeReg s r v) 3) ∨
    (op = .cmp ∧ ∃ f : Byte, t = advance (setFlags s f) 3) := by
  have hraised {tr : Trap} (hc : tr.cause ≠ .none) (e : aluInstr op a b s = .next (takeFault s tr)) : Raised s t :=
    next_inj (e.symm.trans h) ▸ raised_takeFault s hc
  rcases aluInstr_cases op a b s with ⟨r, _, v, _, ha, _, hop, _, e⟩ | ⟨_, _, _, _, _, hop, e⟩ | ⟨_, _, _, _, e⟩ |
    ⟨_, e⟩ | ⟨_, _, e⟩ | ⟨_, e⟩ | ⟨_, e⟩
  · exact .inr (.inl ⟨hop, r, v, ha, next_inj (h.symm.trans e)⟩)
  · exact .inr (.inr ⟨hop, _, next_inj (h.symm.trans e)⟩)
  all_goals exact .inl (hraised (by simp) e)

/-- R17, R120: an operation other than CMP changes register a alone, or raises. -/
theorem aluInstr_frame {op : AluOp} (hop : op ≠ .cmp) {a b : Byte} {s t : State} (h : aluInstr op a b s = .next t) :
    (∀ q : Reg, q.index ≠ a → readReg t q = readReg s q) ∧ t.fl = s.fl ∧ MemoryKept s t ∧ t.out = s.out ∧
      (StatusKept s t ∨ Raised s t) := by
  rcases raised_or_eq_of_aluInstr h with hf | ⟨_, r, v, rfl, rfl⟩ | ⟨hcmp, _⟩
  · obtain ⟨hregs, hmem, hfl, hout⟩ := hf.frame
    exact ⟨fun q _ => congrArg (Regs.get · q) hregs, hfl, hmem, hout, .inr hf⟩
  · have hkept : ∀ q : Reg, q.index ≠ r.index → readReg (writeReg s r v) q = readReg s q :=
      fun q hq => readReg_writeReg_ne s v fun e => hq (congrArg Reg.index e)
    exact ⟨hkept, rfl, fun _ => rfl, rfl, .inl ⟨rfl, rfl, rfl⟩⟩
  · exact absurd hcmp hop

/-- R130: CMP writes FL and no register, or raises. -/
theorem aluInstr_cmp_frame {a b : Byte} {s t : State} (h : aluInstr .cmp a b s = .next t) :
    t.regs = s.regs ∧ MemoryKept s t ∧ t.out = s.out ∧ (StatusKept s t ∨ (Raised s t ∧ t.fl = s.fl)) := by
  rcases raised_or_eq_of_aluInstr h with hf | ⟨hne, _⟩ | ⟨_, f, rfl⟩
  · obtain ⟨hregs, hmem, hfl, hout⟩ := hf.frame
    exact ⟨hregs, hmem, hout, .inr ⟨hf, hfl⟩⟩
  · exact absurd rfl hne
  · exact ⟨rfl, fun _ => rfl, rfl, .inl ⟨rfl, rfl, rfl⟩⟩

/-- Settles O53: each of the ten is the ALU's frame at an operation other than CMP. -/
theorem aluFrame : Obligations.AluFrame := by
  intro i s t h
  refine ⟨fun a b hi => ?_, ?_⟩
  · have halu : ∃ op : AluOp, op ≠ .cmp ∧ aluInstr op a b s = .next t := by
      rcases hi with rfl | rfl | rfl | rfl | rfl | rfl | rfl | rfl | rfl | rfl
      exacts [⟨.add, nofun, h⟩, ⟨.sub, nofun, h⟩, ⟨.mul, nofun, h⟩, ⟨.div, nofun, h⟩, ⟨.mod, nofun, h⟩,
        ⟨.and, nofun, h⟩, ⟨.or, nofun, h⟩, ⟨.xor, nofun, h⟩, ⟨.shl, nofun, h⟩, ⟨.shr, nofun, h⟩]
    obtain ⟨_, hop, h⟩ := halu
    exact aluInstr_frame hop h
  · rintro a b rfl
    rw [exec_cmp] at h
    exact aluInstr_cmp_frame h

/-! ### Arithmetic that completes (R121 to R126) -/

/-- R120: with both operand bytes in memory, an ALU instruction with a register result writes it and advances PC. -/
theorem exists_next_of_aluCompute_register (op : AluOp) {s : State} (ra rb : Reg) {v : Byte}
    (hp : s.pc.toNat + 2 < 256) (hv : aluCompute op (readReg s ra) (readReg s rb) = .register v) :
    ∃ t, aluInstr op ra.index rb.index s = .next t ∧ t.pc = s.pc + 3#9 ∧ readReg t ra = v ∧
      RegistersKeptBut [ra] s t :=
  ⟨_, aluInstr_register hp hv, rfl, readReg_writeReg_same s ra v, registersKeptBut_writeReg s ra v⟩

/-- Settles O47: the byte operations are the integer ones modulo 256. -/
theorem addSubMulWrap : Obligations.AddSubMulWrap := by
  intro s ra rb hp
  have hp : s.pc.toNat + 2 < 256 := by omega
  refine ⟨?_, ?_, ?_⟩
  · obtain ⟨t, ht, hpc, hreg, hkept⟩ := exists_next_of_aluCompute_register .add ra rb hp rfl
    exact ⟨t, ht, hpc, by rw [hreg, BitVec.toNat_add], hkept⟩
  · obtain ⟨t, ht, hpc, hreg, hkept⟩ := exists_next_of_aluCompute_register .sub ra rb hp rfl
    exact ⟨t, ht, hpc, by rw [hreg, BitVec.toNat_sub]; omega, hkept⟩
  · obtain ⟨t, ht, hpc, hreg, hkept⟩ := exists_next_of_aluCompute_register .mul ra rb hp rfl
    exact ⟨t, ht, hpc, by rw [hreg, BitVec.toNat_mul], hkept⟩

/-- Settles O48: the byte operations are the division and remainder of naturals. -/
theorem divModQuotientRemainder : Obligations.DivModQuotientRemainder := by
  intro s ra rb hp hz
  have hp : s.pc.toNat + 2 < 256 := by omega
  obtain ⟨t, ht, htpc, hdiv, htkept⟩ := exists_next_of_aluCompute_register .div ra rb hp (if_neg hz)
  obtain ⟨u, hu, hupc, hmod, hukept⟩ := exists_next_of_aluCompute_register .mod ra rb hp (if_neg hz)
  refine ⟨t, u, ht, hu, ?_, ?_, htpc, hupc, htkept, hukept⟩
  · rw [hdiv, hmod, BitVec.toNat_udiv, BitVec.toNat_umod, Nat.div_add_mod']
  · rw [hmod]
    exact BitVec.lt_def.mp (BitVec.umod_lt _ ((BitVec.pos_iff_ne_zero _).mpr hz))

/-! ### A zero divisor (R124, R125, R163) -/

/-- With both operand bytes in memory, the ALU's div_zero raises with the index of register b. -/
theorem aluInstr_divisionByZero {op : AluOp} {s : State} {ra rb : Reg} (hp : s.pc.toNat + 2 < 256)
    (hv : aluCompute op (readReg s ra) (readReg s rb) = .divisionByZero) :
    aluInstr op ra.index rb.index s = .next (faulted s .divisionByZero (rb.index.setWidth 9)) := by
  simp only [aluInstr, twoRegs_ok ra rb hp, ok_bind, aluApply_select, hv, aluCommit_divisionByZero]
  rfl

/-- Settles O49: both operations answer div_zero on a zero divisor. -/
theorem divModByZeroFaults : Obligations.DivModByZeroFaults := by
  intro s ra rb hp hz
  have hp : s.pc.toNat + 2 < 256 := by omega
  rw [exec_div, exec_mod]
  exact ⟨aluInstr_divisionByZero hp (if_pos hz), aluInstr_divisionByZero hp (if_pos hz)⟩

end Sys2Proof.Machine

/-!
PROOFS. The statements of spec/45_alu_compare_logic_shift.md: the flags of CMP, AND, OR and XOR bit by bit, and the
shifts by the whole count byte.
-/

namespace Sys2Proof.Machine

/-! ### SHL and SHR (R134, R135, D19) -/

/-- The case of a count of 8 or more is no special one: shifting a byte that far leaves no bit of it. -/
theorem shiftLeft_eq (va vb : Byte) : shiftLeft va vb = va <<< vb.toNat := by
  unfold shiftLeft
  split
  case isTrue h => exact (BitVec.shiftLeft_eq_zero h).symm
  case isFalse => rfl

theorem shiftRight_eq (va vb : Byte) : shiftRight va vb = va >>> vb.toNat := by
  unfold shiftRight
  split
  case isTrue h => exact (BitVec.ushiftRight_eq_zero h).symm
  case isFalse => rfl

theorem toNat_shiftLeft (va vb : Byte) : (shiftLeft va vb).toNat = va.toNat * 2 ^ vb.toNat % 256 := by
  rw [shiftLeft_eq, BitVec.toNat_shiftLeft, Nat.shiftLeft_eq]

theorem toNat_shiftRight (va vb : Byte) : (shiftRight va vb).toNat = va.toNat / 2 ^ vb.toNat := by
  rw [shiftRight_eq, BitVec.toNat_ushiftRight, Nat.shiftRight_eq_div_pow]

/-- Settles O52: both shifts are the ALU's register results, whose values are the product modulo 256 and the
quotient, and 0 for a count of 8 or more. -/
theorem shiftsByTheWholeCount : Obligations.ShiftsByTheWholeCount := by
  intro s ra rb hp
  have hp : s.pc.toNat + 2 < 256 := by omega
  obtain ⟨t, ht, htpc, hshl, htkept⟩ := exists_next_of_aluCompute_register .shl ra rb hp rfl
  obtain ⟨u, hu, hupc, hshr, hukept⟩ := exists_next_of_aluCompute_register .shr ra rb hp rfl
  refine ⟨t, u, ht, hu, ?_, ?_, fun h8 => ⟨?_, ?_⟩, htpc, hupc, htkept, hukept⟩
  · rw [hshl, toNat_shiftLeft]
  · rw [hshr, toNat_shiftRight]
  · exact hshl.trans (if_pos h8)
  · exact hshr.trans (if_pos h8)

/-! ### CMP (R130) -/

/-- R16, R130: FL after a comparison, by the unsigned order of the two values. -/
theorem flagsByte_compareFlags_eq (va vb : Byte) :
    flagsByte (compareFlags va vb) =
      if va.toNat = vb.toNat then 0b00000001#8 else if va.toNat < vb.toNat then 0b00000100#8 else 0b00000010#8 := by
  simp only [compareFlags, BitVec.toNat_inj, apply_ite flagsByte]
  rfl

/-- Settles O50: with its operand bytes in memory CMP writes the flags of the comparison and no register. -/
theorem cmpSetsExactlyOneFlag : Obligations.CmpSetsExactlyOneFlag := by
  intro s ra rb hp
  have hp : s.pc.toNat + 2 < 256 := by omega
  rw [exec_cmp]
  exact ⟨_, aluInstr_compare hp, rfl, rfl, flagsByte_compareFlags_eq _ _⟩

/-! ### AND, OR and XOR (R131 to R133) -/

/-- Settles O51: each is the ALU's register result, whose bits are those of the bitwise operation. -/
theorem andOrXorBitwise : Obligations.AndOrXorBitwise := by
  intro s ra rb hp
  have hp : s.pc.toNat + 2 < 256 := by omega
  refine ⟨?_, ?_, ?_⟩
  · obtain ⟨t, ht, hpc, hreg, hkept⟩ := exists_next_of_aluCompute_register .and ra rb hp rfl
    exact ⟨t, ht, hpc, hkept, fun k _ => by rw [hreg, BitVec.getLsbD_and]⟩
  · obtain ⟨t, ht, hpc, hreg, hkept⟩ := exists_next_of_aluCompute_register .or ra rb hp rfl
    exact ⟨t, ht, hpc, hkept, fun k _ => by rw [hreg, BitVec.getLsbD_or]⟩
  · obtain ⟨t, ht, hpc, hreg, hkept⟩ := exists_next_of_aluCompute_register .xor ra rb hp rfl
    exact ⟨t, ht, hpc, hkept, fun k _ => by rw [hreg, BitVec.getLsbD_xor]⟩

end Sys2Proof.Machine

/-!
PROOFS. The statements of spec/50_interfaces.md: what a boot leaves in memory and in the rest of the state.
-/

namespace Sys2Proof.Machine

/-! ### RESET and LOAD (R141, R191) -/

/-- R30: canonical memory lists no cell past address 255. -/
theorem Memory.read_of_memoryBytes_le {lo : Nat} {m : Memory} (h : Memory.wfFrom lo m = true) {a : Nat}
    (ha : Config.memoryBytes ≤ a) : Memory.read m a = Config.unloadedByte := by
  induction m generalizing lo with
  | nil => rfl
  | cons c rest ih =>
    obtain ⟨k, b⟩ := c
    obtain ⟨-, hk, -, hrest⟩ := Memory.wfFrom_cons.mp h
    have hne : k ≠ a := (hk.trans_le ha).ne
    rw [Memory.read_cons_ne b rest hne, ih hrest]

/-- R141, R191: inside memory a boot leaves the image's byte, or the unloaded byte past the image's end. -/
theorem byteAt_boot (s : State) (image : List Byte) {a : Nat} (ha : a < Config.memoryBytes) :
    byteAt (boot s image) a = image.getD a 0x00#8 := by
  have hplace := Memory.read_place [] 0 image Memory.wf_reset a ha
  by_cases hin : a < image.length
  · rw [if_pos ⟨Nat.zero_le a, by omega⟩] at hplace
    exact hplace
  · rw [if_neg (by omega)] at hplace
    rw [List.getD_eq_default _ _ (Nat.le_of_not_lt hin)]
    exact hplace

/-- Memory has no cell past address 255, whatever the image's length (R30, D30). -/
theorem byteAt_boot_of_memoryBytes_le (s : State) (image : List Byte) {a : Nat} (ha : Config.memoryBytes ≤ a) :
    byteAt (boot s image) a = 0x00#8 :=
  Memory.read_of_memoryBytes_le (Memory.wf_place [] 0 image Memory.wf_reset) ha

/-- Settles O23: a boot is the reset state with the image placed in empty memory, read inside memory and past it. -/
theorem bootPlacesTheImage : Obligations.BootPlacesTheImage := by
  intro s image hlen
  refine ⟨fun a h => ?_, fun a h => ?_, rfl⟩
  · rw [byteAt_boot s image (h.trans_le hlen), List.getD_eq_getElem image _ h]
  · rcases Nat.lt_or_ge a Config.memoryBytes with ha | ha
    · rw [byteAt_boot s image ha, List.getD_eq_default image _ h]
    · exact byteAt_boot_of_memoryBytes_le s image ha

end Sys2Proof.Machine

/-!
PROOFS. The statements of spec/60_exceptions.md: which ends of a run are faults, and the fault of a register operand
byte above 7 with its place in the order of checks.
-/

namespace Sys2Proof.Machine

/-! ### Normal ends are no faults (R170) -/

theorem Completes.cause_eq {i : Instr} {s t : State} (h : Completes i s t) : t.cause = s.cause := by
  cases h
  all_goals rfl

/-- Only a fault writes CAUSE (R18, R167). -/
theorem cause_eq_of_step_of_not_goneWrong {s t : State} (h : step s = .next t) (ht : ¬ goneWrong t) :
    t.cause = s.cause := by
  cases stepEffect_of_step h with
  | stopped => rfl
  | ended => rfl
  | unknown => exact absurd rfl ht
  | raised _ _ hf =>
    obtain ⟨c, info, _, rfl⟩ := hf.eq_takeFault
    exact absurd rfl ht
  | completed _ _ _ hc => exact hc.cause_eq

theorem not_goneWrong_of_normal_end {s : State} (h : s.rs = .halted ∨ s.rs = .ended) : ¬ goneWrong s := by
  intro hw
  rcases h with h | h <;> cases h.symm.trans hw

/-- Settles O21: a normal end is not FAULT, without which a step keeps CAUSE; an unknown opcode faults (O17). -/
theorem normalEndsAreNoFaults : Obligations.NormalEndsAreNoFaults := by
  refine ⟨fun s t hr hc h => ⟨fun hend => ?_, fun hp hm => ?_⟩, fun _ => Iff.rfl⟩
  · have hok : ¬ goneWrong t := not_goneWrong_of_normal_end hend
    exact ⟨(cause_eq_of_step_of_not_goneWrong h hok).trans hc, hok⟩
  · have hfault := unknownOpcodeFaults s hr hp ((mnemonicOf_eq_none_iff _).mp hm)
    obtain rfl := next_inj (hfault.symm.trans h)
    exact ⟨rfl, nofun⟩

/-! ### A register operand byte above 7 (R165, R168) -/

theorem takeFault_invalidRegister (s : State) (b : Byte) :
    takeFault s (invalidRegister b) = faulted s .invalidRegister (b.setWidth 9) := rfl

/-- The check follows the operand's read and precedes all else that an instruction of format R does. -/
theorem conclude_oneReg_invalid {s : State} {a : Byte} {f : Reg → Except Trap State}
    (hp : s.pc.toNat + 1 < 256) (ha : 8 ≤ a.toNat) :
    conclude s (oneReg s a >>= f) = .next (faulted s .invalidRegister (a.setWidth 9)) := by
  rw [oneReg, readOperand_ok a hp, ok_bind, checkReg_invalid ha, error_bind, conclude_error,
    takeFault_invalidRegister]

theorem conclude_branchOnReg_invalid {op : BranchOp} {s : State} {a : Byte} (hp : s.pc.toNat + 1 < 256)
    (ha : 8 ≤ a.toNat) (hb : branchTaken op (flagE s.fl) = true) :
    conclude s (branchOnReg op a s) = .next (faulted s .invalidRegister (a.setWidth 9)) := by
  simp only [branchOnReg, hb, if_true]
  exact conclude_oneReg_invalid hp ha

theorem execLdi_invalid {s : State} {a : Byte} (imm : Byte) (hp : s.pc.toNat + 2 < 256) (ha : 8 ≤ a.toNat) :
    execLdi a imm s = .next (faulted s .invalidRegister (a.setWidth 9)) := by
  rw [execLdi, regAndImm, readOperand_ok a (by omega), ok_bind, readOperand_ok imm hp, ok_bind,
    checkReg_invalid ha, error_bind, error_bind, conclude_error, takeFault_invalidRegister]

/-- Inside memory the operands of format RR are their two register checks, a before b (R120). -/
theorem twoRegs_eq_checkReg {s : State} (a b : Byte) (hp : s.pc.toNat + 2 < 256) :
    twoRegs s a b = (do let ra ← checkReg a; let rb ← checkReg b; return (ra, rb)) := by
  rw [twoRegs, readOperand_ok a (by omega), ok_bind, readOperand_ok b hp, ok_bind]

theorem aluInstr_of_twoRegs_error {op : AluOp} {s : State} {a b : Byte} {tr : Trap}
    (h : twoRegs s a b = .error tr) : aluInstr op a b s = .next (takeFault s tr) := by
  rw [aluInstr, h, error_bind, conclude_error]

theorem aluInstr_invalid_left {op : AluOp} {s : State} {a : Byte} (b : Byte) (hp : s.pc.toNat + 2 < 256)
    (ha : 8 ≤ a.toNat) : aluInstr op a b s = .next (faulted s .invalidRegister (a.setWidth 9)) := by
  have htwo : twoRegs s a b = .error (invalidRegister a) := by
    rw [twoRegs_eq_checkReg a b hp, checkReg_invalid ha, error_bind]
  rw [aluInstr_of_twoRegs_error htwo, takeFault_invalidRegister]

theorem aluInstr_invalid_right {op : AluOp} {s : State} (ra : Reg) {b : Byte} (hp : s.pc.toNat + 2 < 256)
    (hb : 8 ≤ b.toNat) : aluInstr op ra.index b s = .next (faulted s .invalidRegister (b.setWidth 9)) := by
  have htwo : twoRegs s ra.index b = .error (invalidRegister b) := by
    rw [twoRegs_eq_checkReg ra.index b hp, checkReg_index, ok_bind, checkReg_invalid hb, error_bind]
  rw [aluInstr_of_twoRegs_error htwo, takeFault_invalidRegister]

/-- The eleven ALU instructions share one frame (R120). -/
theorem exists_exec_eq_aluInstr (a b : Byte) (s : State) :
    ∀ i ∈ [Instr.add a b, .sub a b, .mul a b, .div a b, .mod a b, .cmp a b, .and a b, .or a b, .xor a b,
      .shl a b, .shr a b], ∃ op, exec i s = aluInstr op a b s := by
  simp only [List.forall_mem_cons]
  exact ⟨⟨_, exec_add a b s⟩, ⟨_, exec_sub a b s⟩, ⟨_, exec_mul a b s⟩, ⟨_, exec_div a b s⟩,
    ⟨_, exec_mod a b s⟩, ⟨_, exec_cmp a b s⟩, ⟨_, exec_and a b s⟩, ⟨_, exec_or a b s⟩, ⟨_, exec_xor a b s⟩,
    ⟨_, exec_shl a b s⟩, ⟨_, exec_shr a b s⟩, nofun⟩

/-- Settles O56: the operands' reads succeed, and the check that fails is the first thing done with them. -/
theorem invalidRegisterFaults : Obligations.InvalidRegisterFaults := by
  intro s a b
  refine ⟨fun ha hp => ?_, fun ha hp => ?_, fun ha hb hp => ?_⟩
  · have hp : s.pc.toNat + 1 < 256 := by omega
    simp only [List.forall_mem_cons, exec]
    refine ⟨?_, fun hE => conclude_branchOnReg_invalid hp ha hE,
      fun hE => conclude_branchOnReg_invalid hp ha (congrArg (!·) hE)⟩
    exact ⟨conclude_oneReg_invalid hp ha, conclude_oneReg_invalid hp ha, conclude_oneReg_invalid hp ha,
      conclude_oneReg_invalid hp ha, conclude_branchOnReg_invalid hp ha rfl, nofun⟩
  · have hp : s.pc.toNat + 2 < 256 := by omega
    refine List.forall_mem_cons.mpr ⟨execLdi_invalid b hp ha, fun i hi => ?_⟩
    obtain ⟨op, e⟩ := exists_exec_eq_aluInstr a b s i hi
    rw [e, aluInstr_invalid_left b hp ha]
  · intro i hi
    obtain ⟨op, e⟩ := exists_exec_eq_aluInstr a b s i hi
    obtain ⟨ra, rfl, _⟩ := (checkReg_cases a).resolve_right fun h => by omega
    rw [e, aluInstr_invalid_right ra (by omega) hb]

end Sys2Proof.Machine
